-- ==== Sys2Proof/Word.lean ====
section
/-! DEFINITION. The byte, the one word of this hardware (00_scope.md R11: an unsigned 8-bit value, 0..255). -/

namespace Sys2Proof

/-- A byte, 0..255 (R11). Every field of a frame is a whole byte (R80). -/
abbrev Byte := BitVec 8

/-- The integer a byte stands for, as the fields of a packet hold it (R11: `Packet` is over integers). -/
def byteInt (b : Byte) : Int := (b.toNat : Int)

end Sys2Proof
end

