-- ==== Sys2Proof/Config.lean ====
section
/-! DEFINITION. What is fixed for the block: the constants of 00_scope.md R7 and R8, and the Register Address Map
(10_state.md R28, 43_command_encoder.md R181 to R184), whose addresses and access classes the spec leaves open. -/

namespace Sys2Proof

/-- The named registers of the map (R181): the seven whose addresses the builder uses. -/
inductive RegName where
  | acceleration
  | position
  | speed
  | load
  | voltage
  | temperature
  | current
  deriving DecidableEq, Repr

/-- The four access classes of the map (R52, R184). No rule reads a class. -/
inductive AccessClass where
  | epromReadOnly
  | epromReadWrite
  | sramReadWrite
  | sramReadOnly
  deriving DecidableEq, Repr, Inhabited

/-- One entry of the Register Address Map: address, width in bytes, access class (R52). -/
structure RegEntry where
  address : Byte
  width : Nat
  access : AccessClass
  deriving DecidableEq, Repr

namespace Config

/-- `HEADER1`, the first header byte (R7). -/
abbrev header1 : Byte := 0xFF

/-- `HEADER2`, the second header byte (R7). -/
abbrev header2 : Byte := 0xFF

/-- `LEN_MIN`, the least legal length byte (R7). -/
abbrev lenMin : Nat := 2

/-- `LEN_MAX`, the greatest length byte the deserializer accepts (R7; 90_conflicts.md C1: it bounds the length byte). -/
abbrev lenMax : Nat := 64

/-- `TX_PARAMS_MAX`, the greatest number of parameters `SER` accepts (R7). -/
abbrev txParamsMax : Nat := 60

/-- `TX_ID_MAX`, the greatest servo id `SER` accepts (R7). -/
abbrev txIdMax : Nat := 254

/-- `BROADCAST_ID`: a name only, nothing handles it specially (R7, R99; 90_conflicts.md C5). -/
abbrev broadcastId : Nat := 255

/-- `INS_PING` (R7, R85). -/
abbrev insPing : Byte := 1

/-- `INS_READ` (R7, R85). -/
abbrev insRead : Byte := 2

/-- `INS_WRITE` (R7, R85). -/
abbrev insWrite : Byte := 3

/-- `INS_REGWRITE` (R7, R85). -/
abbrev insRegwrite : Byte := 4

/-- `INS_ACTION` (R7, R85). -/
abbrev insAction : Byte := 5

/-- `POS_MAX`, the greatest absolute-move position (R7). -/
abbrev posMax : Nat := 4095

/-- `MOVE_DATA_LEN`, the data bytes of the move and rotate commands (R7). -/
abbrev moveDataLen : Nat := 7

/-- `VOLT_DIV`, the divisor of the voltage decoder (R7). -/
abbrev voltDiv : Nat := 10

/-- `SIGN_BIT` of the sign-magnitude decode (R7). -/
abbrev signBit : Nat := 15

/-- `MAG_MASK` of the sign-magnitude decode (R7). -/
abbrev magMask : BitVec 16 := 0x7FFF

/-- `REM_MAX` (R8). -/
abbrev remMax : Nat := lenMax - 1

/-- `RX_PARAMS_MAX`, the most parameters of an emitted packet (R8). -/
abbrev rxParamsMax : Nat := lenMax - 2

/-- `TX_LEN_MAX`, the greatest length byte `SER` produces (R8). -/
abbrev txLenMax : Nat := txParamsMax + 2

/-- `TX_FRAME_BYTES_MAX` (R8). -/
abbrev txFrameBytesMax : Nat := txParamsMax + 6

/-- `RX_FRAME_BYTES_MAX` (R8). -/
abbrev rxFrameBytesMax : Nat := lenMax + 4

/-- `FRAME_BYTES_MIN` (R8). -/
abbrev frameBytesMin : Nat := lenMin + 4

/-- `BUF_CAP`, the transient capacity of `rx.buf` (R8, R23; 90_conflicts.md C8). -/
abbrev bufCap : Nat := lenMax + 2

/-- `WRITE_DATA_MAX` (R8). -/
abbrev writeDataMax : Nat := txParamsMax - 1

/-- The addresses `ADDR_*` of the map: OPEN parameters (R9, R181; D15), any byte each. Log 13. -/
opaque regAddr : RegName → Byte

/-- The access classes of the map: assigned nowhere, read by no rule (R184; D16). Log 14. -/
opaque regAccess : RegName → AccessClass

/-- The widths of the registers in bytes, which are not open (R182; D32). -/
def regWidth : RegName → Nat
  | .acceleration => 1
  | .position => 2
  | .speed => 2
  | .load => 2
  | .voltage => 1
  | .temperature => 1
  | .current => 2

/-- `REGMAP` (R28, R52): immutable, the same for every operation. -/
def regMap (r : RegName) : RegEntry :=
  { address := regAddr r, width := regWidth r, access := regAccess r }

/-- PRESUMED: the addresses commonly published for this servo family (R183; 93 G1). Nothing in the machine uses them;
they serve the worked examples only. Log 13. -/
def defaultAddr : RegName → Byte
  | .acceleration => 0x29
  | .position => 0x38
  | .speed => 0x3A
  | .load => 0x3C
  | .voltage => 0x3E
  | .temperature => 0x3F
  | .current => 0x45

end Config

end Sys2Proof
end

