-- ==== Sys2Proof/Syntax.lean ====
section
/-! DEFINITION. The operations of the block (00_scope.md R6, 30_encoding.md R101) as one inductive, the values they are
made of (packets, frames), and the requests through which the host presents them (10_state.md R34 to R37). -/

namespace Sys2Proof

/-- The six values of `rx.st` (R22), a six-constructor enumeration as R22 asks. -/
inductive RxState where
  | waitHeader1
  | waitHeader2
  | waitId
  | waitLength
  | waitPayload
  | waitChecksum
  deriving DecidableEq, Repr

/-- A packet (R11, R83): servo id, instruction code and parameters, over unbounded integers (D12). -/
structure Packet where
  servoId : Int
  instruction : Int
  params : List Int
  deriving DecidableEq, Repr

/-- The operand of a FRAME row: the bytes of a received frame less the header pair and the instruction code (R80).
`tail` is every byte after the code, `params ++ [checksum]` for a legal length byte, nothing for an illegal one
(log 6). -/
structure Frame where
  servoId : Byte
  length : Byte
  tail : List Byte
  deriving DecidableEq, Repr

/-- The operations. One constructor per mnemonic of spec/opcode_table.json; the twelve RX.BYTE rows are the arms of the
one operation `rxByte` (R102, R130; log 9). -/
inductive Instr where
  /-- PING: a frame with instruction code 1 is received (R85). -/
  | ping (f : Frame)
  /-- READ: a frame with instruction code 2 is received (R89). -/
  | read (f : Frame)
  /-- WRITE: a frame with instruction code 3 is received (R90). -/
  | write (f : Frame)
  /-- REGWRITE: a frame with instruction code 4 is received (R85). -/
  | regwrite (f : Frame)
  /-- ACTION: a frame with instruction code 5 is received (R85). -/
  | action (f : Frame)
  /-- RX.BYTE (R130). -/
  | rxByte (b : Byte)
  /-- RX.RESET (R140). -/
  | rxReset
  /-- RX.FEED (R141). -/
  | rxFeed (chunk : List Byte)
  /-- CHK.GEN (R122). -/
  | chkGen (bytes : List Byte)
  /-- CHK.VERIFY (R123). -/
  | chkVerify (covered : List Byte) (c : Byte)
  /-- SER (R160). -/
  | ser (p : Packet)
  /-- CB.READ (R186). -/
  | cbRead (servoId address size : Int)
  /-- CB.WRITE (R188). -/
  | cbWrite (servoId address : Int) (data : List Int)
  /-- CB.MOVE (R189). -/
  | cbMove (servoId position speed acc : Int)
  /-- CB.ROTATE (R190). -/
  | cbRotate (servoId speed acc : Int)
  /-- CB.RD_POSITION (R191). -/
  | cbRdPosition (servoId : Int)
  /-- CB.RD_SPEED (R192). -/
  | cbRdSpeed (servoId : Int)
  /-- CB.RD_TEMPERATURE (R193). -/
  | cbRdTemperature (servoId : Int)
  /-- CB.RD_VOLTAGE (R194). -/
  | cbRdVoltage (servoId : Int)
  /-- CB.RD_LOAD (R195). -/
  | cbRdLoad (servoId : Int)
  /-- CB.RD_CURRENT (R196). -/
  | cbRdCurrent (servoId : Int)
  /-- CB.PING (R197; layout from general knowledge, log 22). -/
  | cbPing (servoId : Int)
  /-- CB.REGWRITE (R198; layout from general knowledge, log 22). -/
  | cbRegwrite (servoId address : Int) (data : List Int)
  /-- CB.ACTION (R199; layout from general knowledge, log 22). -/
  | cbAction (servoId : Int)
  /-- VD.U8 (R211). -/
  | vdU8 (params : List Byte)
  /-- VD.U16 (R212). -/
  | vdU16 (params : List Byte)
  /-- VD.S16 (R213). -/
  | vdS16 (params : List Byte)
  /-- VD.VOLTAGE (R215). -/
  | vdVoltage (params : List Byte)
  /-- VD.POSITION (R216). -/
  | vdPosition (params : List Byte)
  /-- VD.TEMPERATURE (R217). -/
  | vdTemperature (params : List Byte)
  /-- VD.SPEED (R218). -/
  | vdSpeed (params : List Byte)
  /-- VD.CURRENT (R219). -/
  | vdCurrent (params : List Byte)
  /-- VD.LOAD (R220). -/
  | vdLoad (params : List Byte)
  deriving DecidableEq, Repr

/-- The input ports of the deserializer in one cycle (R34). -/
structure RxPorts where
  rst : Bool
  rxClear : Bool
  rxValid : Bool
  rxData : Byte
  deriving DecidableEq, Repr

/-- The operand inputs of the command builder (R36) at the transaction level: unbounded integers (D12). An operation
reads the ones it names. -/
structure CbArgs where
  servoId : Int := 0
  address : Int := 0
  size : Int := 0
  data : List Int := []
  position : Int := 0
  speed : Int := 0
  acc : Int := 0
  deriving DecidableEq, Repr

/-- What the host presents to the block at once. Which unit's inputs it drives is the format of 30_encoding.md R102; the
select codes are those of R103. -/
inductive Request where
  /-- One clock cycle at the deserializer's ports (R34; formats RXSTEP and RXCTL). -/
  | rxCycle (p : RxPorts)
  /-- One `RX.FEED` (R141; format RXCTL). -/
  | rxChunk (chunk : List Byte)
  /-- The bytes of one burst on the receive line, to be read as a frame (R80; format FRAME). -/
  | wire (bytes : List Byte)
  /-- One use of the checksum generator (format CHK). -/
  | chkGen (bytes : List Byte)
  /-- One use of the checksum validator (format CHK). -/
  | chkVerify (covered : List Byte) (c : Byte)
  /-- One use of the serializer (format SER). -/
  | ser (p : Packet)
  /-- One use of the command builder: the select `cb_op` and the operand inputs (format CBOP). -/
  | cb (op : BitVec 4) (a : CbArgs)
  /-- One use of the value decoder: the select `vd_op` and the parameters (format VDOP). -/
  | vd (op : BitVec 4) (params : List Byte)
  deriving DecidableEq, Repr

end Sys2Proof
end

