-- ==== Sys2Proof/WellFormed.lean ====
section
/-! DEFINITION. Which frames and operations are well formed, and which packets are valid (30_encoding.md R82, R84). -/

namespace Sys2Proof

/-- The length byte is one the deserializer accepts: `2 <= L <= 64` (R98, R135). -/
def legalLength (l : Byte) : Bool :=
  decide (Config.lenMin ≤ l.toNat) && decide (l.toNat ≤ Config.lenMax)

/-- The parameter bytes of a frame: all of the tail but its last byte (R82, R86). -/
def Frame.params (f : Frame) : List Byte :=
  f.tail.dropLast

/-- The `cond` of the opcode table's READ row (R102, R89): byte 3 is 4. -/
def Frame.readCond (f : Frame) : Bool :=
  f.length == 4

/-- The `cond` of the opcode table's WRITE row (R102, R90): byte 3 is `len(data) + 3`, where the parameters are
`[address] ++ data`. A frame without the address has no `data` and is no WRITE. -/
def Frame.writeCond (f : Frame) : Bool :=
  match f.params with
  | [] => false
  | _ :: data => f.length.toNat == data.length + 3

/-- A FRAME operand holds as many bytes as its length byte says (R82: `L - 2` parameters and one checksum after the
code); with an illegal length byte the frame ends with the code byte (log 6). -/
def Frame.wf (f : Frame) : Bool :=
  if legalLength f.length then f.tail.length + 1 == f.length.toNat else f.tail.isEmpty

/-- An operation is well formed: the frames of the FRAME rows are, and meet their row's `cond` (log 7); every operand of every other operation is admitted
(D12: out-of-range arguments are presented and answered with an error; R57, R141: any chunk). -/
def Instr.wf : Instr → Bool
  | .ping f => f.wf
  | .read f => f.wf && f.readCond
  | .write f => f.wf && f.writeCond
  | .regwrite f => f.wf
  | .action f => f.wf
  | .rxByte _ => true
  | .rxReset => true
  | .rxFeed _ => true
  | .chkGen _ => true
  | .chkVerify _ _ => true
  | .ser _ => true
  | .cbRead _ _ _ => true
  | .cbWrite _ _ _ => true
  | .cbMove _ _ _ _ => true
  | .cbRotate _ _ _ => true
  | .cbRdPosition _ => true
  | .cbRdSpeed _ => true
  | .cbRdTemperature _ => true
  | .cbRdVoltage _ => true
  | .cbRdLoad _ => true
  | .cbRdCurrent _ => true
  | .cbPing _ => true
  | .cbRegwrite _ _ _ => true
  | .cbAction _ => true
  | .vdU8 _ => true
  | .vdU16 _ => true
  | .vdS16 _ => true
  | .vdVoltage _ => true
  | .vdPosition _ => true
  | .vdTemperature _ => true
  | .vdSpeed _ => true
  | .vdCurrent _ => true
  | .vdLoad _ => true

/-- An integer is in the range of a byte, 0..255. -/
def isByte (v : Int) : Bool := decide (0 ≤ v) && decide (v ≤ 255)

/-- A valid packet (R84): id 0..254, code 0..255, at most 60 parameters, each 0..255. -/
def Packet.valid (p : Packet) : Bool :=
  decide (0 ≤ p.servoId) && decide (p.servoId ≤ Config.txIdMax) && isByte p.instruction &&
    decide (p.params.length ≤ Config.txParamsMax) && p.params.all isByte

/-- What every packet the deserializer emits satisfies (R143): byte fields and at most 62 parameters. -/
def Packet.receivable (p : Packet) : Bool :=
  isByte p.servoId && isByte p.instruction &&
    decide (p.params.length ≤ Config.rxParamsMax) && p.params.all isByte

end Sys2Proof
end

