-- ==== Sys2Proof/Decode.lean ====
section
/-! DEFINITION. From what the host presents to an operation: the select codes (30_encoding.md R101 to R103), the frame
layout (R80), the words of spec/opcode_table.json, and the encoder from the same tables. -/

namespace Sys2Proof

/-- Why a request selects no operation. -/
inductive Reject where
  /-- A cycle with `rx_valid = 0` and no reset: nothing is asked, the state is held (R34). -/
  | idleCycle
  /-- `cb_op` 13..15 (R103). -/
  | unusedCbOp (op : BitVec 4)
  /-- `vd_op` 9..15 (R103). -/
  | unusedVdOp (op : BitVec 4)
  deriving DecidableEq, Repr

/-- The 3-bit encoding of `rx.st` (R22; D3). -/
def RxState.code : RxState → BitVec 3
  | .waitHeader1 => 0
  | .waitHeader2 => 1
  | .waitId => 2
  | .waitLength => 3
  | .waitPayload => 4
  | .waitChecksum => 5

/-- The state a 3-bit code names; 6 and 7 name none (R22). -/
def RxState.ofCode (c : BitVec 3) : Option RxState :=
  match c.toNat with
  | 0 => some .waitHeader1
  | 1 => some .waitHeader2
  | 2 => some .waitId
  | 3 => some .waitLength
  | 4 => some .waitPayload
  | 5 => some .waitChecksum
  | _ => none

/-- The bytes of a frame with instruction code `code`, in wire order (R80, R55). -/
def Frame.bytes (code : Byte) (f : Frame) : List Byte :=
  Config.header1 :: Config.header2 :: f.servoId :: f.length :: code :: f.tail

/-- The bytes the checksum covers: id, length, instruction code, parameters (R87). -/
def Frame.covered (code : Byte) (f : Frame) : List Byte :=
  f.servoId :: f.length :: code :: f.params

/-- The FRAME row that a frame's first five bytes and the row's `cond` select (R85, R102; log 7). The other codes are
unnamed (R99), and a frame of code 2 or 3 that fails the `cond` selects no row. -/
def frameOp (code : Byte) (f : Frame) : Option Instr :=
  match code.toNat with
  | 1 => some (.ping f)
  | 2 => if f.readCond then some (.read f) else none
  | 3 => if f.writeCond then some (.write f) else none
  | 4 => some (.regwrite f)
  | 5 => some (.action f)
  | _ => none

/-- The operation a burst of received bytes asks for, total on any bytes: a FRAME row when the burst is exactly one frame
that selects one, otherwise the plain feed of the bytes, since every byte is accepted (R130, R99; log 8). -/
def decodeWire (bytes : List Byte) : Instr :=
  match bytes with
  | h1 :: h2 :: id :: len :: code :: tail =>
    if h1 = Config.header1 ∧ h2 = Config.header2 ∧ (Frame.mk id len tail).wf = true then
      (frameOp code (Frame.mk id len tail)).getD (.rxFeed bytes)
    else .rxFeed bytes
  | _ => .rxFeed bytes

/-- One cycle at the deserializer's ports (R34): reset wins over a byte (R239 f); without either the state is held. -/
def decodeCycle (p : RxPorts) : Except Reject Instr :=
  if p.rst || p.rxClear then .ok .rxReset
  else if p.rxValid then .ok (.rxByte p.rxData)
  else .error .idleCycle

/-- The operation `cb_op` selects (R103); inputs it does not name are ignored (R36). -/
def decodeCb (op : BitVec 4) (a : CbArgs) : Except Reject Instr :=
  match op.toNat with
  | 0 => .ok (.cbRead a.servoId a.address a.size)
  | 1 => .ok (.cbWrite a.servoId a.address a.data)
  | 2 => .ok (.cbMove a.servoId a.position a.speed a.acc)
  | 3 => .ok (.cbRotate a.servoId a.speed a.acc)
  | 4 => .ok (.cbRdPosition a.servoId)
  | 5 => .ok (.cbRdSpeed a.servoId)
  | 6 => .ok (.cbRdTemperature a.servoId)
  | 7 => .ok (.cbRdVoltage a.servoId)
  | 8 => .ok (.cbRdLoad a.servoId)
  | 9 => .ok (.cbRdCurrent a.servoId)
  | 10 => .ok (.cbPing a.servoId)
  | 11 => .ok (.cbRegwrite a.servoId a.address a.data)
  | 12 => .ok (.cbAction a.servoId)
  | _ => .error (.unusedCbOp op)

/-- The operation `vd_op` selects (R103). -/
def decodeVd (op : BitVec 4) (params : List Byte) : Except Reject Instr :=
  match op.toNat with
  | 0 => .ok (.vdU8 params)
  | 1 => .ok (.vdU16 params)
  | 2 => .ok (.vdS16 params)
  | 3 => .ok (.vdVoltage params)
  | 4 => .ok (.vdPosition params)
  | 5 => .ok (.vdTemperature params)
  | 6 => .ok (.vdSpeed params)
  | 7 => .ok (.vdCurrent params)
  | 8 => .ok (.vdLoad params)
  | _ => .error (.unusedVdOp op)

/-- The decoder: the operation a request selects, or the name of why it selects none (R101, R103). -/
def decode : Request → Except Reject Instr
  | .rxCycle p => decodeCycle p
  | .rxChunk chunk => .ok (.rxFeed chunk)
  | .wire bytes => .ok (decodeWire bytes)
  | .chkGen bytes => .ok (.chkGen bytes)
  | .chkVerify covered c => .ok (.chkVerify covered c)
  | .ser p => .ok (.ser p)
  | .cb op a => decodeCb op a
  | .vd op params => decodeVd op params

/-- The cycle that presents one received byte (R34). -/
def byteCycle (b : Byte) : Request :=
  .rxCycle { rst := false, rxClear := false, rxValid := true, rxData := b }

/-- The encoder: the request that presents an operation (R34 to R37, R80, R103). `RX.RESET` is asked with `rx_clear`. -/
def encode : Instr → Request
  | .ping f => .wire (f.bytes Config.insPing)
  | .read f => .wire (f.bytes Config.insRead)
  | .write f => .wire (f.bytes Config.insWrite)
  | .regwrite f => .wire (f.bytes Config.insRegwrite)
  | .action f => .wire (f.bytes Config.insAction)
  | .rxByte b => byteCycle b
  | .rxReset => .rxCycle { rst := false, rxClear := true, rxValid := false, rxData := 0 }
  | .rxFeed chunk => .rxChunk chunk
  | .chkGen bytes => .chkGen bytes
  | .chkVerify covered c => .chkVerify covered c
  | .ser p => .ser p
  | .cbRead id addr size => .cb 0 { servoId := id, address := addr, size := size }
  | .cbWrite id addr data => .cb 1 { servoId := id, address := addr, data := data }
  | .cbMove id pos speed acc => .cb 2 { servoId := id, position := pos, speed := speed, acc := acc }
  | .cbRotate id speed acc => .cb 3 { servoId := id, speed := speed, acc := acc }
  | .cbRdPosition id => .cb 4 { servoId := id }
  | .cbRdSpeed id => .cb 5 { servoId := id }
  | .cbRdTemperature id => .cb 6 { servoId := id }
  | .cbRdVoltage id => .cb 7 { servoId := id }
  | .cbRdLoad id => .cb 8 { servoId := id }
  | .cbRdCurrent id => .cb 9 { servoId := id }
  | .cbPing id => .cb 10 { servoId := id }
  | .cbRegwrite id addr data => .cb 11 { servoId := id, address := addr, data := data }
  | .cbAction id => .cb 12 { servoId := id }
  | .vdU8 ps => .vd 0 ps
  | .vdU16 ps => .vd 1 ps
  | .vdS16 ps => .vd 2 ps
  | .vdVoltage ps => .vd 3 ps
  | .vdPosition ps => .vd 4 ps
  | .vdTemperature ps => .vd 5 ps
  | .vdSpeed ps => .vd 6 ps
  | .vdCurrent ps => .vd 7 ps
  | .vdLoad ps => .vd 8 ps

/-- The mnemonic of an operation (R101, R104). -/
def Instr.mnemonic : Instr → String
  | .ping _ => "PING"
  | .read _ => "READ"
  | .write _ => "WRITE"
  | .regwrite _ => "REGWRITE"
  | .action _ => "ACTION"
  | .rxByte _ => "RX.BYTE"
  | .rxReset => "RX.RESET"
  | .rxFeed _ => "RX.FEED"
  | .chkGen _ => "CHK.GEN"
  | .chkVerify _ _ => "CHK.VERIFY"
  | .ser _ => "SER"
  | .cbRead _ _ _ => "CB.READ"
  | .cbWrite _ _ _ => "CB.WRITE"
  | .cbMove _ _ _ _ => "CB.MOVE"
  | .cbRotate _ _ _ => "CB.ROTATE"
  | .cbRdPosition _ => "CB.RD_POSITION"
  | .cbRdSpeed _ => "CB.RD_SPEED"
  | .cbRdTemperature _ => "CB.RD_TEMPERATURE"
  | .cbRdVoltage _ => "CB.RD_VOLTAGE"
  | .cbRdLoad _ => "CB.RD_LOAD"
  | .cbRdCurrent _ => "CB.RD_CURRENT"
  | .cbPing _ => "CB.PING"
  | .cbRegwrite _ _ _ => "CB.REGWRITE"
  | .cbAction _ => "CB.ACTION"
  | .vdU8 _ => "VD.U8"
  | .vdU16 _ => "VD.U16"
  | .vdS16 _ => "VD.S16"
  | .vdVoltage _ => "VD.VOLTAGE"
  | .vdPosition _ => "VD.POSITION"
  | .vdTemperature _ => "VD.TEMPERATURE"
  | .vdSpeed _ => "VD.SPEED"
  | .vdCurrent _ => "VD.CURRENT"
  | .vdLoad _ => "VD.LOAD"

/-- Byte `i` of a FRAME word of the opcode table, whose byte 0 stands in bits 39:32 (R102). -/
def frameWordByte (w i : Nat) : Byte :=
  BitVec.ofNat 8 (w / 256 ^ (4 - i))

/-- The frame whose first five bytes are a FRAME word and whose further bytes, as many as its length byte asks for
(R97), are zero. -/
def frameOfWord (w : Nat) : List Byte :=
  let len := frameWordByte w 3
  [frameWordByte w 0, frameWordByte w 1, frameWordByte w 2, len, frameWordByte w 4] ++
    (if legalLength len then List.replicate (len.toNat - 1) 0 else [])

/-- The state bits 10:8 of an RXSTEP word (R102). -/
def rxWordState (w : Nat) : Option RxState :=
  if w < 2 ^ 11 then RxState.ofCode (BitVec.ofNat 3 (w / 256)) else none

/-- The `format` of a row of spec/opcode_table.json (R102). -/
inductive WordFormat where
  | frame
  | rxStep
  | rxCtl
  | chk
  | ser
  | cbOp
  | vdOp
  deriving DecidableEq, Repr

/-- The requests that a word of a format stands for (R102), the operands it has no bits for being 0 or empty (log 10). A
FRAME, RXSTEP, CBOP or VDOP word selects by its bits; a word of RXCTL, CHK or SER has no selecting bits (`mask = 0x0`), so
it stands for every row of its format, in the table's order. -/
def wordRequests (fmt : WordFormat) (w : Nat) : List Request :=
  match fmt with
  | .frame =>
    if w < 2 ^ 40 ∧ frameWordByte w 0 = Config.header1 ∧ frameWordByte w 1 = Config.header2 then
      [.wire (frameOfWord w)]
    else []
  | .rxStep => (rxWordState w).toList.map fun _ => byteCycle (BitVec.ofNat 8 w)
  | .rxCtl => [.rxCycle { rst := false, rxClear := true, rxValid := false, rxData := 0 }, .rxChunk []]
  | .chk => [.chkGen [], .chkVerify [] 0]
  | .ser => [.ser { servoId := 0, instruction := 0, params := [] }]
  | .cbOp => if w < 16 then [.cb (BitVec.ofNat 4 w) {}] else []
  | .vdOp => if w < 16 then [.vd (BitVec.ofNat 4 w) []] else []

/-- The operation a request selects, if any. -/
def decode? (r : Request) : Option Instr :=
  match decode r with
  | .ok i => some i
  | .error _ => none

/-- The operations a word of a format stands for (R102, R103). -/
def decodeWord (fmt : WordFormat) (w : Nat) : List Instr :=
  (wordRequests fmt w).filterMap decode?

/-- The format a width is taken for where a word comes without its format (log 10): 40 bits FRAME, two bytes RXSTEP, at
most one byte CBOP. -/
def formatOfWidth (nbits : Nat) : Option WordFormat :=
  if nbits = 40 then some .frame
  else if 8 < nbits ∧ nbits ≤ 16 then some .rxStep
  else if nbits ≤ 8 then some .cbOp
  else none

/-- The request a word that comes without its format stands for. -/
def tableRequest (nbits w : Nat) : Option Request :=
  match formatOfWidth nbits with
  | none => none
  | some fmt => (wordRequests fmt w).head?

/-- The operation the decoder reads from a word of spec/opcode_table.json that comes without its format. -/
def decodeTableWord (nbits w : Nat) : Option Instr :=
  match tableRequest nbits w with
  | none => none
  | some r => decode? r

end Sys2Proof
end

