-- ==== Sys2Proof/Machine/State.lean ====
section
/-! DEFINITION. The state (10_state.md R20 to R25), what operations output, the reported errors (60_exceptions.md R230),
the reasons a step stops, and the state after reset (10_state.md R33). -/

namespace Sys2Proof.Machine

/-- The seven reported error kinds with the info R230 records (R233: kept apart). They are RESULTS of an operation, not
faults of the machine (R232, R240; log 29). -/
inductive ErrKind where
  /-- `E_SERVO_ID`, code 1: the id. -/
  | servoId (value : Int)
  /-- `E_INSTRUCTION`, code 2: the instruction value. -/
  | instruction (value : Int)
  /-- `E_PARAM_COUNT`, code 3: the number of parameters. -/
  | paramCount (count : Nat)
  /-- `E_PARAM_VALUE`, code 4: the least failing index. -/
  | paramValue (index : Nat)
  /-- `E_FRAME_LENGTH`, code 5: the computed length byte (unreachable, R165). -/
  | frameLength (length : Nat)
  /-- `E_POSITION_RANGE`, code 6: the position. -/
  | positionRange (position : Int)
  /-- `E_LENGTH_MISMATCH`, code 7: expected and actual number of parameters. -/
  | lengthMismatch (expected actual : Nat)
  deriving DecidableEq, Repr

/-- What one operation gives the host (00_scope.md R11 outcomes, R13). -/
inductive Output where
  /-- `output none`: a step that emitted nothing, or a reset. A drop is not told apart from it (R237). -/
  | noOutput
  /-- `emit(packet)` of RX.BYTE (R137). -/
  | emit (p : Packet)
  /-- The packets one RX.FEED or one received frame returned, in order (R141). -/
  | fed (ps : List Packet)
  /-- The byte of CHK.GEN (R122). -/
  | byte (b : Byte)
  /-- The truth value of CHK.VERIFY (R123). -/
  | verdict (ok : Bool)
  /-- The frame of SER (R163). -/
  | frame (bytes : List Byte)
  /-- The packet of a CB operation (R180). -/
  | packet (p : Packet)
  /-- The integer of a VD operation (R211 to R220). -/
  | value (v : Int)
  /-- The exact rational of VD.VOLTAGE, in volts (R215; D17). -/
  | volts (v : Rat)
  /-- A reported error, in place of the result (R240). -/
  | error (e : ErrKind)
  deriving DecidableEq, Repr

/-- The deserializer state (R20): the parse state, the accumulation buffer, the remaining-payload counter. -/
structure Deser where
  /-- `rx.st` (R22). -/
  st : RxState
  /-- `rx.buf` (R23). -/
  buf : List Byte
  /-- `rx.rem`, 0..63 (R24). -/
  rem : Fin 64
  deriving DecidableEq, Repr

/-- The machine: the whole architectural state of the core (R20), and beside it the two lists through which the host
drives and observes it (logs 1 and 2). -/
structure State where
  /-- The deserializer (R20): all the state the spec gives the block. -/
  rx : Deser
  /-- The operations the host has presented and the block has not performed, next first (R283; log 1). -/
  pending : List Request
  /-- One entry per performed operation or cycle, oldest first (R13, R283; log 2). No operation reads it. -/
  outputs : List Output
  deriving DecidableEq, Repr

/-- Faults: none. The block has "no trap, no hang, no stuck state" (00_scope.md section 7 item 5; log 25). -/
inductive Fault where
  deriving DecidableEq, Repr

/-- The reasons the model gives a request or a state no meaning. -/
inductive Refusal where
  /-- Raised by exec for an instruction without a meaning; no arm of exec raises it. Safe. -/
  | notModelled (mnemonic : String)
  /-- Raised by RX.BYTE, RX.FEED and the FRAME rows when the byte in `WaitChecksum` meets a deserializer value that
  violates R25: "for a `Deser` value that violates rule R25 this rule defines nothing, and a model ... refuses such a
  value" (R137). No run from reset reaches one. Safe. -/
  | rxOutsideInvariant
  /-- Raised by step for `cb_op` 13..15: "An unused value selects no operation; a model refuses it" (R103). Safe. -/
  | unusedCbOp (op : BitVec 4)
  /-- Raised by step for `vd_op` 9..15 (R103). Safe. -/
  | unusedVdOp (op : BitVec 4)
  deriving DecidableEq, Repr

/-- The deserializer after reset (R33). -/
def Deser.reset : Deser :=
  { st := .waitHeader1, buf := [], rem := 0 }

/-- The machine right after reset (R33): the known-empty deserializer, nothing presented, nothing output. -/
def State.reset : State :=
  { rx := Deser.reset, pending := [], outputs := [] }

end Sys2Proof.Machine
end

