-- ==== Sys2Proof/Machine/Flags.lean ====
section
/-! DEFINITION. The block has no status flags and no condition codes (10_state.md R29). What stands in their place is the
outcome of an operation: success, or an error kind with its code (60_exceptions.md R230), computed here. -/

namespace Sys2Proof.Machine

/-- The 3-bit code of an error kind (R230; D11). 0 is "no error". -/
def ErrKind.code : ErrKind → BitVec 3
  | .servoId _ => 1
  | .instruction _ => 2
  | .paramCount _ => 3
  | .paramValue _ => 4
  | .frameLength _ => 5
  | .positionRange _ => 6
  | .lengthMismatch _ _ => 7

/-- The error code an output shows: 0 unless it is a reported error (R35 to R37: "0 when ok = 1"). -/
def Output.errCode : Output → BitVec 3
  | .noOutput => 0
  | .emit _ => 0
  | .fed _ => 0
  | .byte _ => 0
  | .verdict _ => 0
  | .frame _ => 0
  | .packet _ => 0
  | .value _ => 0
  | .volts _ => 0
  | .error e => e.code

/-- An output is a success, not a reported error. -/
def Output.isOk : Output → Bool
  | .noOutput => true
  | .emit _ => true
  | .fed _ => true
  | .byte _ => true
  | .verdict _ => true
  | .frame _ => true
  | .packet _ => true
  | .value _ => true
  | .volts _ => true
  | .error _ => false

/-- The packets the deserializer emitted in an output (R13 a). A packet the builder built is not emitted. -/
def Output.emitted : Output → List Packet
  | .noOutput => []
  | .emit p => [p]
  | .fed ps => ps
  | .byte _ => []
  | .verdict _ => []
  | .frame _ => []
  | .packet _ => []
  | .value _ => []
  | .volts _ => []
  | .error _ => []

/-- The output of an RX.BYTE step from its optional packet (R130). -/
def Output.ofStep : Option Packet → Output
  | none => .noOutput
  | some p => .emit p

/-- The output of a pure operation from its outcome: the result, or the error in place of it (R240). -/
def Output.ofResult : Except ErrKind Output → Output
  | .ok o => o
  | .error e => .error e

end Sys2Proof.Machine
end

