-- ==== Sys2Proof/Machine/Operands.lean ====
section
/-! DEFINITION. Field assembly (30_encoding.md R93 to R96): bytes of integers, halves of 16-bit quantities, little-endian
combination, the sign-magnitude reading. -/

namespace Sys2Proof.Machine

/-- The byte an integer of 0..255 is sent as; in general its low eight bits (R11). -/
def toByte (v : Int) : Byte :=
  BitVec.ofInt 8 v

/-- Bits 7:0 of an integer: `v & 0xFF`, which is `v mod 256`, the least non-negative residue for negative `v` too
(R93, R96; D13). -/
def lowByte (v : Int) : Int :=
  v % 256

/-- Bits 15:8 of an integer: `(v >> 8) & 0xFF`, with `>>` the floor of the quotient (R11, R93, R96; D13). -/
def highByte (v : Int) : Int :=
  v / 256 % 256

/-- The little-endian combination `p0 | (p1 << 8)` (R94, R56). -/
def combine16 (p0 p1 : Byte) : BitVec 16 :=
  p0.setWidth 16 ||| (p1.setWidth 16 <<< 8)

/-- The sign-magnitude reading of a 16-bit quantity: `-(raw & 0x7FFF)` when bit 15 is set, else `raw` (R95, R213). The
negative zero is the integer 0 (R214; D18). -/
def smag16 (raw : BitVec 16) : Int :=
  if raw.getLsbD Config.signBit then -((raw &&& Config.magMask).toNat : Int) else (raw.toNat : Int)

end Sys2Proof.Machine
end

