-- ==== Sys2Proof/Machine/Ops.lean ====
section
/-! DEFINITION. The operations every family shares: the checksum function (40_checksum.md), the deserializer's
well-formedness and abort (10_state.md R25, 41_deserializer.md R131), recording an output, and reporting an error
(60_exceptions.md R240), which is this block's taking of an exception. -/

namespace Sys2Proof.Machine

/-- `sum(s)`: the exact integer sum of a byte sequence (R11). -/
def byteSum : List Byte → Nat
  | [] => 0
  | b :: bs => b.toNat + byteSum bs

/-- `checksum(s) = (~sum(s)) & 0xFF` (R120): the complement of the exact sum, kept to eight bits. -/
def checksum (s : List Byte) : Byte :=
  BitVec.ofInt 8 (-(byteSum s : Int) - 1)

/-- `CHK.VERIFY` as a function (R123). -/
def verifies (covered : List Byte) (c : Byte) : Bool :=
  checksum covered == c

/-- The running 8-bit sum an implementation may keep instead (R121, R126): `acc <- (acc + b) mod 256`. Not state. -/
def runningSum (s : List Byte) : Byte :=
  s.foldl (fun acc b => acc + b) 0

/-- The shape R25 gives the buffer once it holds id and length byte: `len(rx.buf) + rx.rem = L + 1`, `2 <= L <= 64`. -/
def bufShape (buf : List Byte) (rem : Nat) : Bool :=
  match buf with
  | _ :: len :: payload => legalLength len && (payload.length + rem + 1 == len.toNat)
  | _ => false

/-- The state invariant of R25, one line per parse state. -/
def Deser.wf (d : Deser) : Bool :=
  match d.st with
  | .waitHeader1 => d.buf.isEmpty && d.rem.val == 0
  | .waitHeader2 => d.buf.isEmpty && d.rem.val == 0
  | .waitId => d.buf.isEmpty && d.rem.val == 0
  | .waitLength => d.buf.length == 1 && d.rem.val == 0
  | .waitPayload => bufShape d.buf d.rem.val && decide (1 ≤ d.rem.val)
  | .waitChecksum => bufShape d.buf d.rem.val && d.rem.val == 0

/-- `abort()` (R131, R241): the writes of every completed or abandoned frame, and of reset (R140). -/
def Deser.abort (d : Deser) : Deser :=
  { d with st := .waitHeader1, buf := [], rem := 0 }

/-- `packet_of(covered)` (R142): id, instruction code, parameters; the length byte is not part of the packet. -/
def packetOf : List Byte → Option Packet
  | id :: _ :: code :: params =>
    some { servoId := byteInt id, instruction := byteInt code, params := params.map byteInt }
  | _ => none

/-- The deserializer in parse state `st`: as it is if it stands there within R25, else the smallest value of R25 with
that parse state. Used only to place an RXSTEP word of the opcode table (log 11). -/
def Deser.placeIn (st : RxState) (d : Deser) : Deser :=
  if d.st = st ∧ d.wf = true then d
  else
    match st with
    | .waitHeader1 => { st := st, buf := [], rem := 0 }
    | .waitHeader2 => { st := st, buf := [], rem := 0 }
    | .waitId => { st := st, buf := [], rem := 0 }
    | .waitLength => { st := st, buf := [0], rem := 0 }
    | .waitPayload => { st := st, buf := [0, 2], rem := 1 }
    | .waitChecksum => { st := st, buf := [0, 2, 0], rem := 0 }

/-- Replace the deserializer. -/
def State.withRx (d : Deser) (s : State) : State :=
  { s with rx := d }

/-- Record what an operation output (R13, R283). -/
def State.record (o : Output) (s : State) : State :=
  { s with outputs := s.outputs ++ [o] }

/-- An abnormal event of a pure operation (R240): the error is the operation's result and nothing else happens. No state
is saved or changed, control goes nowhere; so there is nothing to return from (R243). -/
def State.reportError (e : ErrKind) (s : State) : State :=
  s.record (.error e)

/-- The end of a pure operation: its result, or its reported error in place of it (R232, R240). -/
def State.complete (r : Except ErrKind Output) (s : State) : State :=
  match r with
  | .ok o => s.record o
  | .error e => s.reportError e

/-- The packets emitted so far, in order (R13 a, R65). -/
def State.emitted (s : State) : List Packet :=
  s.outputs.flatMap Output.emitted

end Sys2Proof.Machine
end

