-- ==== Sys2Proof/Machine/Builder.lean ====
section
/-! DEFINITION. The command encoder (43_command_encoder.md): register access, motion commands, typed reads, and the three
codes whose layout is general knowledge. No operation here checks anything but the position of CB.MOVE (R185). -/

namespace Sys2Proof.Machine

/-- The packet of `read(servo_id, address, size)` (R186, R89). -/
def readPacket (servoId address size : Int) : Packet :=
  { servoId := servoId, instruction := byteInt Config.insRead, params := [address, size] }

/-- The packet of `write(servo_id, address, data)` (R188, R90). -/
def writePacket (servoId address : Int) (data : List Int) : Packet :=
  { servoId := servoId, instruction := byteInt Config.insWrite, params := address :: data }

/-- The seven data bytes of the move and rotate commands (R91, R189): acc, position low and high, two zeros, speed low and
high. `speed` and `acc` are truncated, never checked (R96, R201). -/
def motionData (position speed acc : Int) : List Int :=
  [lowByte acc, lowByte position, highByte position, 0, 0, lowByte speed, highByte speed]

/-- The address of a register as a packet parameter (R181). -/
def regParam (r : RegName) : Int :=
  byteInt (Config.regMap r).address

/-- The packet of the absolute-move command (R189): a write at the acceleration register, or the position error before
any byte is built (R239 b). -/
def movePacket (servoId position speed acc : Int) : Except ErrKind Packet :=
  if position < 0 ∨ (Config.posMax : Int) < position then .error (.positionRange position)
  else .ok (writePacket servoId (regParam .acceleration) (motionData position speed acc))

/-- The packet of the continuous-rotation command (R190): the position fields forced to zero. -/
def rotatePacket (servoId speed acc : Int) : Packet :=
  writePacket servoId (regParam .acceleration) (motionData 0 speed acc)

/-- The packet of a typed read (R191 to R196): a read of the register at its address with its width. -/
def typedReadPacket (r : RegName) (servoId : Int) : Packet :=
  readPacket servoId (regParam r) ((Config.regMap r).width : Int)

/-- The meaning of CB.READ (R186). -/
def execCbRead (servoId address size : Int) (s : State) : Host.Outcome State Fault Refusal :=
  .next (s.record (.packet (readPacket servoId address size)))

/-- The meaning of CB.WRITE (R188). -/
def execCbWrite (servoId address : Int) (data : List Int) (s : State) : Host.Outcome State Fault Refusal :=
  .next (s.record (.packet (writePacket servoId address data)))

/-- The meaning of CB.MOVE (R189). -/
def execCbMove (servoId position speed acc : Int) (s : State) : Host.Outcome State Fault Refusal :=
  .next (s.complete ((movePacket servoId position speed acc).map .packet))

/-- The meaning of CB.ROTATE (R190). -/
def execCbRotate (servoId speed acc : Int) (s : State) : Host.Outcome State Fault Refusal :=
  .next (s.record (.packet (rotatePacket servoId speed acc)))

/-- The meaning of CB.RD_POSITION (R191). -/
def execCbRdPosition (servoId : Int) (s : State) : Host.Outcome State Fault Refusal :=
  .next (s.record (.packet (typedReadPacket .position servoId)))

/-- The meaning of CB.RD_SPEED (R192). -/
def execCbRdSpeed (servoId : Int) (s : State) : Host.Outcome State Fault Refusal :=
  .next (s.record (.packet (typedReadPacket .speed servoId)))

/-- The meaning of CB.RD_TEMPERATURE (R193). -/
def execCbRdTemperature (servoId : Int) (s : State) : Host.Outcome State Fault Refusal :=
  .next (s.record (.packet (typedReadPacket .temperature servoId)))

/-- The meaning of CB.RD_VOLTAGE (R194). -/
def execCbRdVoltage (servoId : Int) (s : State) : Host.Outcome State Fault Refusal :=
  .next (s.record (.packet (typedReadPacket .voltage servoId)))

/-- The meaning of CB.RD_LOAD (R195). -/
def execCbRdLoad (servoId : Int) (s : State) : Host.Outcome State Fault Refusal :=
  .next (s.record (.packet (typedReadPacket .load servoId)))

/-- The meaning of CB.RD_CURRENT (R196). -/
def execCbRdCurrent (servoId : Int) (s : State) : Host.Outcome State Fault Refusal :=
  .next (s.record (.packet (typedReadPacket .current servoId)))

/-- The meaning of CB.PING (R197; PRESUMED layout, log 22). -/
def execCbPing (servoId : Int) (s : State) : Host.Outcome State Fault Refusal :=
  .next (s.record (.packet { servoId := servoId, instruction := byteInt Config.insPing, params := [] }))

/-- The meaning of CB.REGWRITE (R198; PRESUMED layout, log 22). -/
def execCbRegwrite (servoId address : Int) (data : List Int) (s : State) : Host.Outcome State Fault Refusal :=
  .next (s.record
    (.packet { servoId := servoId, instruction := byteInt Config.insRegwrite, params := address :: data }))

/-- The meaning of CB.ACTION (R199; PRESUMED layout, log 22). -/
def execCbAction (servoId : Int) (s : State) : Host.Outcome State Fault Refusal :=
  .next (s.record (.packet { servoId := servoId, instruction := byteInt Config.insAction, params := [] }))

end Sys2Proof.Machine
end

