-- ==== Sys2Proof/Machine/Checksum.lean ====
section
/-! DEFINITION. The checksum generator and validator (40_checksum.md R122, R123). -/

namespace Sys2Proof.Machine

/-- The meaning of CHK.GEN (R122). -/
def execChkGen (bytes : List Byte) (s : State) : Host.Outcome State Fault Refusal :=
  .next (s.record (.byte (checksum bytes)))

/-- The meaning of CHK.VERIFY (R123). A `false` is a result, not an error. -/
def execChkVerify (covered : List Byte) (c : Byte) (s : State) : Host.Outcome State Fault Refusal :=
  .next (s.record (.verdict (verifies covered c)))

end Sys2Proof.Machine
end

