-- ==== Sys2Proof/Machine/Serializer.lean ====
section
/-! DEFINITION. The frame serializer (42_serializer.md). -/

namespace Sys2Proof.Machine

/-- The length byte of a packet's frame (R82). -/
def frameLen (p : Packet) : Nat :=
  p.params.length + 2

/-- The least index whose parameter is not a byte (R161 check 4, R162). -/
def badParam? (params : List Int) : Option Nat :=
  params.findIdx? fun v => !isByte v

/-- The checks of R161 in the order of R162: the first failing one is reported. -/
def validate (p : Packet) : Except ErrKind Unit :=
  if p.servoId < 0 ∨ (Config.txIdMax : Int) < p.servoId then .error (.servoId p.servoId)
  else if isByte p.instruction = false then .error (.instruction p.instruction)
  else if Config.txParamsMax < p.params.length then .error (.paramCount p.params.length)
  else
    match badParam? p.params with
    | some i => .error (.paramValue i)
    | none =>
      if frameLen p < Config.lenMin ∨ Config.lenMax < frameLen p then .error (.frameLength (frameLen p))
      else .ok ()

/-- The bytes of a packet's frame that the checksum covers: id, length, instruction, parameters (R87). -/
def coveredOf (p : Packet) : List Byte :=
  toByte p.servoId :: toByte (frameLen p) :: toByte p.instruction :: p.params.map toByte

/-- `encode(p)` (R163): header pair, covered bytes, checksum. -/
def encodeFrame (p : Packet) : List Byte :=
  Config.header1 :: Config.header2 :: (coveredOf p ++ [checksum (coveredOf p)])

/-- `SER(p)` as a function (R160): validate, then encode; no partial bytes on an error (R164). -/
def serialize (p : Packet) : Except ErrKind (List Byte) :=
  match validate p with
  | .ok () => .ok (encodeFrame p)
  | .error e => .error e

/-- The meaning of SER (R160). -/
def execSer (p : Packet) (s : State) : Host.Outcome State Fault Refusal :=
  .next (s.complete ((serialize p).map .frame))

end Sys2Proof.Machine
end

