-- ==== Sys2Proof/Machine/ValueDecoder.lean ====
section
/-! DEFINITION. The typed-value decoder (44_value_decoder.md): three primitives, six named decoders. It reads `params`
only (R221). -/

namespace Sys2Proof.Machine

/-- `require_len(params, 1)` and the value of the one byte (R210, R211). -/
def decodeU8 (params : List Byte) : Except ErrKind Byte :=
  match params with
  | [p0] => .ok p0
  | _ => .error (.lengthMismatch 1 params.length)

/-- `require_len(params, 2)` and the little-endian 16-bit quantity (R210, R212). -/
def decodeU16 (params : List Byte) : Except ErrKind (BitVec 16) :=
  match params with
  | [p0, p1] => .ok (combine16 p0 p1)
  | _ => .error (.lengthMismatch 2 params.length)

/-- The unsigned byte result of `u8` decoders (R211). -/
def u8Result (params : List Byte) : Except ErrKind Output :=
  (decodeU8 params).map fun b => .value (byteInt b)

/-- The unsigned result of `u16` decoders (R212). -/
def u16Result (params : List Byte) : Except ErrKind Output :=
  (decodeU16 params).map fun raw => .value (raw.toNat : Int)

/-- The sign-magnitude result of `s16` decoders (R213). -/
def s16Result (params : List Byte) : Except ErrKind Output :=
  (decodeU16 params).map fun raw => .value (smag16 raw)

/-- The exact volts of the voltage decoder, `params[0] / VOLT_DIV` in lowest terms (R215; D17, log 17). -/
def voltageResult (params : List Byte) : Except ErrKind Output :=
  (decodeU8 params).map fun b => .volts (mkRat b.toNat Config.voltDiv)

/-- The meaning of VD.U8 (R211). -/
def execVdU8 (params : List Byte) (s : State) : Host.Outcome State Fault Refusal :=
  .next (s.complete (u8Result params))

/-- The meaning of VD.U16 (R212). -/
def execVdU16 (params : List Byte) (s : State) : Host.Outcome State Fault Refusal :=
  .next (s.complete (u16Result params))

/-- The meaning of VD.S16 (R213). -/
def execVdS16 (params : List Byte) (s : State) : Host.Outcome State Fault Refusal :=
  .next (s.complete (s16Result params))

/-- The meaning of VD.VOLTAGE (R215). -/
def execVdVoltage (params : List Byte) (s : State) : Host.Outcome State Fault Refusal :=
  .next (s.complete (voltageResult params))

/-- The meaning of VD.POSITION (R216). -/
def execVdPosition (params : List Byte) (s : State) : Host.Outcome State Fault Refusal :=
  .next (s.complete (u16Result params))

/-- The meaning of VD.TEMPERATURE (R217). -/
def execVdTemperature (params : List Byte) (s : State) : Host.Outcome State Fault Refusal :=
  .next (s.complete (u8Result params))

/-- The meaning of VD.SPEED (R218). -/
def execVdSpeed (params : List Byte) (s : State) : Host.Outcome State Fault Refusal :=
  .next (s.complete (s16Result params))

/-- The meaning of VD.CURRENT (R219). -/
def execVdCurrent (params : List Byte) (s : State) : Host.Outcome State Fault Refusal :=
  .next (s.complete (s16Result params))

/-- The meaning of VD.LOAD (R220). -/
def execVdLoad (params : List Byte) (s : State) : Host.Outcome State Fault Refusal :=
  .next (s.complete (s16Result params))

end Sys2Proof.Machine
end

