-- ==== Sys2Proof/Machine/Deserializer.lean ====
section
/-! DEFINITION. The frame deserializer (41_deserializer.md): the six rules of RX.BYTE, RX.RESET, RX.FEED, and the causes of
a silent drop (60_exceptions.md R236). -/

namespace Sys2Proof.Machine

/-- RX.BYTE in `WaitHeader1` (R132). -/
def rxWaitHeader1 (b : Byte) (d : Deser) : Deser × Option Packet :=
  if b = Config.header1 then ({ d with st := .waitHeader2 }, none) else (d, none)

/-- RX.BYTE in `WaitHeader2` (R133): a mismatching byte is not examined again. -/
def rxWaitHeader2 (b : Byte) (d : Deser) : Deser × Option Packet :=
  if b = Config.header2 then ({ d with st := .waitId }, none) else (d.abort, none)

/-- RX.BYTE in `WaitId` (R134). -/
def rxWaitId (b : Byte) (d : Deser) : Deser × Option Packet :=
  ({ d with st := .waitLength, buf := [b] }, none)

/-- RX.BYTE in `WaitLength` (R135). -/
def rxWaitLength (b : Byte) (d : Deser) : Deser × Option Packet :=
  if legalLength b then
    ({ st := .waitPayload, buf := d.buf ++ [b], rem := Fin.ofNat 64 (b.toNat - 1) }, none)
  else (d.abort, none)

/-- RX.BYTE in `WaitPayload` (R136), with the defensive arm for a counter of 0 (D31). -/
def rxWaitPayload (b : Byte) (d : Deser) : Deser × Option Packet :=
  if d.rem.val = 0 then (d.abort, none)
  else
    ({ st := if d.rem.val - 1 = 0 then .waitChecksum else .waitPayload
       buf := d.buf ++ [b]
       rem := Fin.ofNat 64 (d.rem.val - 1) }, none)

/-- RX.BYTE in `WaitChecksum` (R137): emit on a match, silently drop on a mismatch, abort in both cases. `none` where the
rule defines nothing: a value that violates R25. The checksum byte's append (R23) is emptied in the same step
(log 27). -/
def rxWaitChecksum (b : Byte) (d : Deser) : Option (Deser × Option Packet) :=
  if d.wf then
    if verifies d.buf b then (packetOf d.buf).map fun p => (d.abort, some p)
    else some (d.abort, none)
  else none

/-- RX.BYTE (R130): dispatch on `rx.st`. -/
def rxStep (b : Byte) (d : Deser) : Option (Deser × Option Packet) :=
  match d.st with
  | .waitHeader1 => some (rxWaitHeader1 b d)
  | .waitHeader2 => some (rxWaitHeader2 b d)
  | .waitId => some (rxWaitId b d)
  | .waitLength => some (rxWaitLength b d)
  | .waitPayload => some (rxWaitPayload b d)
  | .waitChecksum => rxWaitChecksum b d

/-- RX.FEED (R141): the bytes in index order, the emitted packets in step order. -/
def rxFeed : List Byte → Deser → Option (Deser × List Packet)
  | [], d => some (d, [])
  | b :: bs, d =>
    match rxStep b d with
    | none => none
    | some (d', o) =>
      match rxFeed bs d' with
      | none => none
      | some (d'', ps) => some (d'', o.toList ++ ps)

/-- The causes of a silent drop (R236). For proofs and tests only: no output shows one (R237). -/
inductive DropCause where
  | noise
  | header2
  | length
  | underflow
  | checksum
  deriving DecidableEq, Repr

/-- The drop a byte causes in a deserializer state, if any (R236, R98). A ghost: no operation reads it. -/
def dropCause (b : Byte) (d : Deser) : Option DropCause :=
  match d.st with
  | .waitHeader1 => if b = Config.header1 then none else some .noise
  | .waitHeader2 => if b = Config.header2 then none else some .header2
  | .waitId => none
  | .waitLength => if legalLength b then none else some .length
  | .waitPayload => if d.rem.val = 0 then some .underflow else none
  | .waitChecksum => if verifies d.buf b then none else some .checksum

/-- The meaning of RX.BYTE (R130). -/
def execRxByte (b : Byte) (s : State) : Host.Outcome State Fault Refusal :=
  match rxStep b s.rx with
  | some (d, o) => .next ((s.withRx d).record (.ofStep o))
  | none => .refused .rxOutsideInvariant

/-- The meaning of RX.RESET (R140, R260): abort, no output. -/
def execRxReset (s : State) : Host.Outcome State Fault Refusal :=
  .next ((s.withRx s.rx.abort).record .noOutput)

/-- Bytes received in one operation: RX.FEED of them, the packets returned (R141). -/
def receive (bytes : List Byte) (s : State) : Host.Outcome State Fault Refusal :=
  match rxFeed bytes s.rx with
  | some (d, ps) => .next ((s.withRx d).record (.fed ps))
  | none => .refused .rxOutsideInvariant

/-- The meaning of RX.FEED (R141). -/
def execRxFeed (chunk : List Byte) (s : State) : Host.Outcome State Fault Refusal :=
  receive chunk s

end Sys2Proof.Machine
end

