-- ==== Sys2Proof/Machine/Wire.lean ====
section
/-! DEFINITION. The FRAME rows (30_encoding.md R85, R89, R90): what this block does with a frame that carries a named
instruction code, which is to receive its bytes. The instruction code is carried uninterpreted in both directions (R85,
R143); what a servo does with the frame is outside the block (R5, R53). Log 5. -/

namespace Sys2Proof.Machine

/-- The meaning of PING: a frame with code 1 is received (R85, R143). -/
def execPing (f : Frame) (s : State) : Host.Outcome State Fault Refusal :=
  receive (f.bytes Config.insPing) s

/-- The meaning of READ: a frame with code 2 is received (R89, R143). -/
def execRead (f : Frame) (s : State) : Host.Outcome State Fault Refusal :=
  receive (f.bytes Config.insRead) s

/-- The meaning of WRITE: a frame with code 3 is received (R90, R143). -/
def execWrite (f : Frame) (s : State) : Host.Outcome State Fault Refusal :=
  receive (f.bytes Config.insWrite) s

/-- The meaning of REGWRITE: a frame with code 4 is received (R85, R143). -/
def execRegwrite (f : Frame) (s : State) : Host.Outcome State Fault Refusal :=
  receive (f.bytes Config.insRegwrite) s

/-- The meaning of ACTION: a frame with code 5 is received (R85, R143). -/
def execAction (f : Frame) (s : State) : Host.Outcome State Fault Refusal :=
  receive (f.bytes Config.insAction) s

end Sys2Proof.Machine
end

