-- ==== Sys2Proof/Machine/Dispatch.lean ====
section
/-! DEFINITION. The dispatch: one arm per operation (30_encoding.md R101). -/

namespace Sys2Proof.Machine

/-- The meaning of an operation (R101). -/
def exec (i : Instr) (s : State) : Host.Outcome State Fault Refusal :=
  match i with
  | .ping f => Sys2Proof.Machine.execPing f s
  | .read f => Sys2Proof.Machine.execRead f s
  | .write f => Sys2Proof.Machine.execWrite f s
  | .regwrite f => Sys2Proof.Machine.execRegwrite f s
  | .action f => Sys2Proof.Machine.execAction f s
  | .rxByte b => Sys2Proof.Machine.execRxByte b s
  | .rxReset => Sys2Proof.Machine.execRxReset s
  | .rxFeed chunk => Sys2Proof.Machine.execRxFeed chunk s
  | .chkGen bytes => Sys2Proof.Machine.execChkGen bytes s
  | .chkVerify covered c => Sys2Proof.Machine.execChkVerify covered c s
  | .ser p => Sys2Proof.Machine.execSer p s
  | .cbRead servoId address size => Sys2Proof.Machine.execCbRead servoId address size s
  | .cbWrite servoId address data => Sys2Proof.Machine.execCbWrite servoId address data s
  | .cbMove servoId position speed acc => Sys2Proof.Machine.execCbMove servoId position speed acc s
  | .cbRotate servoId speed acc => Sys2Proof.Machine.execCbRotate servoId speed acc s
  | .cbRdPosition servoId => Sys2Proof.Machine.execCbRdPosition servoId s
  | .cbRdSpeed servoId => Sys2Proof.Machine.execCbRdSpeed servoId s
  | .cbRdTemperature servoId => Sys2Proof.Machine.execCbRdTemperature servoId s
  | .cbRdVoltage servoId => Sys2Proof.Machine.execCbRdVoltage servoId s
  | .cbRdLoad servoId => Sys2Proof.Machine.execCbRdLoad servoId s
  | .cbRdCurrent servoId => Sys2Proof.Machine.execCbRdCurrent servoId s
  | .cbPing servoId => Sys2Proof.Machine.execCbPing servoId s
  | .cbRegwrite servoId address data => Sys2Proof.Machine.execCbRegwrite servoId address data s
  | .cbAction servoId => Sys2Proof.Machine.execCbAction servoId s
  | .vdU8 params => Sys2Proof.Machine.execVdU8 params s
  | .vdU16 params => Sys2Proof.Machine.execVdU16 params s
  | .vdS16 params => Sys2Proof.Machine.execVdS16 params s
  | .vdVoltage params => Sys2Proof.Machine.execVdVoltage params s
  | .vdPosition params => Sys2Proof.Machine.execVdPosition params s
  | .vdTemperature params => Sys2Proof.Machine.execVdTemperature params s
  | .vdSpeed params => Sys2Proof.Machine.execVdSpeed params s
  | .vdCurrent params => Sys2Proof.Machine.execVdCurrent params s
  | .vdLoad params => Sys2Proof.Machine.execVdLoad params s

end Sys2Proof.Machine
end

