-- ==== Sys2Proof/Machine/Ports.lean ====
section
/-! DEFINITION. The port-level binding of 10_state.md R34 to R37: how port inputs become requests, and what the output
ports show of an operation's output. The normative level is the transaction; no operation reads a port record. A port
that is not valid, and an element a count asks for that has no port, carries ANY value (93 U15; log 21): the functions take
it as the argument `free`, a byte for each index. -/

namespace Sys2Proof.Machine

/-- The serializer's input ports (R35). -/
structure SerPortsIn where
  sId : Byte
  sInstr : Byte
  sNparams : BitVec 7
  sParams : Vector Byte 60
  deriving DecidableEq, Repr

/-- The serializer's output ports (R35). -/
structure SerPortsOut where
  sOk : Bool
  sErr : BitVec 3
  sNbytes : BitVec 7
  sBytes : Vector Byte 66
  deriving DecidableEq, Repr

/-- The deserializer's output ports (R34). -/
structure RxPortsOut where
  pktValid : Bool
  pktId : Byte
  pktInstr : Byte
  pktNparams : BitVec 6
  pktParams : Vector Byte 62
  deriving DecidableEq, Repr

/-- The command builder's input ports (R36). `cb_ndata` is the 6-bit port; the operations with data take 0..59. -/
structure CbPortsIn where
  cbOp : BitVec 4
  cbId : Byte
  cbAddr : Byte
  cbSize : Byte
  cbNdata : BitVec 6
  cbData : Vector Byte 59
  cbPosition : BitVec 16
  cbSpeed : BitVec 16
  cbAcc : Byte
  deriving DecidableEq, Repr

/-- The command builder's output ports (R36). -/
structure CbPortsOut where
  cbOk : Bool
  cbErr : BitVec 3
  cbPktId : Byte
  cbPktInstr : Byte
  cbPktNparams : BitVec 6
  cbPktParams : Vector Byte 60
  deriving DecidableEq, Repr

/-- The value decoder's input ports (R37). `vd_nparams` is the 6-bit port; the receiver gives 0..62. -/
structure VdPortsIn where
  vdOp : BitVec 4
  vdNparams : BitVec 6
  vdP0 : Byte
  vdP1 : Byte
  deriving DecidableEq, Repr

/-- The value decoder's output ports (R37). -/
structure VdPortsOut where
  vdOk : Bool
  vdErr : BitVec 3
  vdValue : BitVec 17
  vdDiv10 : Bool
  deriving DecidableEq, Repr

/-- The packet the serializer's ports present (R35): the first `min(s_nparams, 60)` parameters are on the ports. Above 60
the packet is refused by its count alone (R166), so the absent elements are never read; they stand as 0. -/
def SerPortsIn.packet (i : SerPortsIn) : Packet :=
  { servoId := byteInt i.sId
    instruction := byteInt i.sInstr
    params := (i.sParams.toList.take i.sNparams.toNat).map byteInt ++ List.replicate (i.sNparams.toNat - 60) 0 }

/-- The request the serializer's ports present. -/
def SerPortsIn.request (i : SerPortsIn) : Request :=
  .ser i.packet

/-- The data elements the builder's ports present (R36): the first `cb_ndata` of the 59 data ports; an element that
`cb_ndata = 60..63` asks for beyond them is any value (log 21). -/
def CbPortsIn.data (free : Nat → Byte) (i : CbPortsIn) : List Byte :=
  i.cbData.toList.take i.cbNdata.toNat ++ (List.range (i.cbNdata.toNat - 59)).map free

/-- The request the builder's ports present (R36). -/
def CbPortsIn.request (free : Nat → Byte) (i : CbPortsIn) : Request :=
  .cb i.cbOp
    { servoId := byteInt i.cbId
      address := byteInt i.cbAddr
      size := byteInt i.cbSize
      data := (i.data free).map byteInt
      position := (i.cbPosition.toNat : Int)
      speed := (i.cbSpeed.toNat : Int)
      acc := byteInt i.cbAcc }

/-- The request the decoder's ports present (R37): `vd_p0` and `vd_p1` where the index is below `vd_nparams`. No operation
accepts more than two parameters (R210), so further elements are never read; they stand as 0. -/
def VdPortsIn.request (i : VdPortsIn) : Request :=
  .vd i.vdOp ([i.vdP0, i.vdP1].take i.vdNparams.toNat ++ List.replicate (i.vdNparams.toNat - 2) 0)

/-- `n` bytes on ports: the sequence's element where it has one, any value elsewhere (U15). -/
def portBytes (n : Nat) (free : Nat → Byte) (bs : List Byte) : Vector Byte n :=
  Vector.ofFn fun i => bs.getD i.val (free i.val)

/-- The packet output ports in the cycle of an operation (R34): `pkt_valid` is 1 exactly when the cycle's byte emitted a
packet. DESIGN CHOICE (log 33): a reception performed as one whole step (`RX.FEED` or a FRAME row, output `.fed`) is no
cycle of these ports, which have no `RX.FEED` (R141), and the spec says nothing of what they show then; the model shows
`pkt_valid = 0` and any packet values for it, even where the step returned packets. -/
def rxPortsOf (free : Nat → Byte) (o : Output) : RxPortsOut :=
  match o with
  | .emit p =>
    { pktValid := true
      pktId := toByte p.servoId
      pktInstr := toByte p.instruction
      pktNparams := BitVec.ofNat 6 p.params.length
      pktParams := portBytes 62 free (p.params.map toByte) }
  | _ =>
    { pktValid := false
      pktId := free 62
      pktInstr := free 63
      pktNparams := (free 64).setWidth 6
      pktParams := portBytes 62 free [] }

/-- The serializer's output ports for the output of SER (R35, R164); `none` for the output of another unit. -/
def serPortsOf (free : Nat → Byte) (o : Output) : Option SerPortsOut :=
  match o with
  | .frame bytes =>
    some { sOk := true, sErr := 0, sNbytes := BitVec.ofNat 7 bytes.length, sBytes := portBytes 66 free bytes }
  | .error e => some { sOk := false, sErr := e.code, sNbytes := 0, sBytes := portBytes 66 free [] }
  | _ => none

/-- The builder's output ports for the output of a CB operation (R36); `none` for the output of another unit. A packet of
more than 60 parameters (`cb_ndata` above 59) shows the first 60, and a count the 6-bit port cannot hold shows as any value
(log 21). -/
def cbPortsOf (free : Nat → Byte) (o : Output) : Option CbPortsOut :=
  match o with
  | .packet p =>
    some
      { cbOk := true
        cbErr := 0
        cbPktId := toByte p.servoId
        cbPktInstr := toByte p.instruction
        cbPktNparams := if p.params.length < 64 then BitVec.ofNat 6 p.params.length else (free 62).setWidth 6
        cbPktParams := portBytes 60 free (p.params.map toByte) }
  | .error e =>
    some
      { cbOk := false
        cbErr := e.code
        cbPktId := free 60
        cbPktInstr := free 61
        cbPktNparams := (free 62).setWidth 6
        cbPktParams := portBytes 60 free [] }
  | _ => none

/-- The decoder's output ports for the output of a VD operation (R37): a 17-bit two's-complement carrier, and the scale
flag exactly for VD.VOLTAGE, whose value port carries the numerator in tenths of a volt; `none` for another unit. -/
def vdPortsOf (free : Nat → Byte) (o : Output) : Option VdPortsOut :=
  match o with
  | .value v => some { vdOk := true, vdErr := 0, vdValue := BitVec.ofInt 17 v, vdDiv10 := false }
  | .volts q =>
    some { vdOk := true, vdErr := 0, vdValue := BitVec.ofInt 17 (q.num * Config.voltDiv / q.den), vdDiv10 := true }
  | .error e =>
    some
      { vdOk := false
        vdErr := e.code
        vdValue := (free 0 ++ free 1 ++ free 2).setWidth 17
        vdDiv10 := (free 3).getLsbD 0 }
  | _ => none

end Sys2Proof.Machine
end

