-- ==== Sys2Proof/Machine/Step.lean ====
section
/-! DEFINITION. One step of the machine: the next request the host has presented is decoded and performed (70 R283, 10 R34);
and the placing of a word of spec/opcode_table.json as the next request. -/

namespace Sys2Proof.Machine

/-- A request taken from the front of `pending`, performed. -/
def perform (r : Request) (s : State) : Host.Outcome State Fault Refusal :=
  match decode r with
  | .ok i => exec i s
  | .error .idleCycle => .next (s.record .noOutput)
  | .error (.unusedCbOp op) => .refused (.unusedCbOp op)
  | .error (.unusedVdOp op) => .refused (.unusedVdOp op)

/-- One step: perform the next request; with none presented the state is held (R34, R281: nothing blocks, and the block
never halts, R283; log 3). -/
def step (s : State) : Host.Outcome State Fault Refusal :=
  match s.pending with
  | [] => .next s
  | r :: rest => perform r { s with pending := rest }

/-- The parse state a word of the opcode table asks for: bits 10:8 of an RXSTEP word (R102), none of another word. -/
def wordState (nbits w : Nat) : Option RxState :=
  if 8 < nbits ∧ nbits ≤ 16 then rxWordState w else none

/-- `s` with a word of the opcode table as the next request; for an RXSTEP word the deserializer stands in the parse
state the word selects (log 11). -/
def State.withFetchWord (s : State) (nbits w : Nat) : State :=
  match tableRequest nbits w with
  | none => s
  | some r =>
    { s with
      pending := r :: s.pending
      rx := match wordState nbits w with
        | none => s.rx
        | some st => s.rx.placeIn st }

end Sys2Proof.Machine
end

