-- ==== Sys2Proof/Safety.lean ====
section
/-! DEFINITION. What counts as a good state and a safe step, in the terms the statements use. -/

namespace Sys2Proof

/-- The operations of the pure units (10_state.md R30): everything but RX.BYTE, RX.RESET, RX.FEED and the FRAME rows. -/
def Instr.isPure : Instr → Bool
  | .ping _ => false
  | .read _ => false
  | .write _ => false
  | .regwrite _ => false
  | .action _ => false
  | .rxByte _ => false
  | .rxReset => false
  | .rxFeed _ => false
  | .chkGen _ => true
  | .chkVerify _ _ => true
  | .ser _ => true
  | .cbRead _ _ _ => true
  | .cbWrite _ _ _ => true
  | .cbMove _ _ _ _ => true
  | .cbRotate _ _ _ => true
  | .cbRdPosition _ => true
  | .cbRdSpeed _ => true
  | .cbRdTemperature _ => true
  | .cbRdVoltage _ => true
  | .cbRdLoad _ => true
  | .cbRdCurrent _ => true
  | .cbPing _ => true
  | .cbRegwrite _ _ _ => true
  | .cbAction _ => true
  | .vdU8 _ => true
  | .vdU16 _ => true
  | .vdS16 _ => true
  | .vdVoltage _ => true
  | .vdPosition _ => true
  | .vdTemperature _ => true
  | .vdSpeed _ => true
  | .vdCurrent _ => true
  | .vdLoad _ => true

namespace Machine

/-- The invariant of the machine: the deserializer is within R25, and every packet it has emitted has byte fields and at
most 62 parameters (R143). -/
def State.inv (s : State) : Bool :=
  s.rx.wf && s.emitted.all Packet.receivable

/-- A safe step: it gives a next state that keeps the invariant. Only the unused select codes of R103 make a step from a
good state unsafe. -/
def SafeStep (s : State) : Prop :=
  ∃ s', step s = .next s' ∧ s'.inv = true

end Machine

end Sys2Proof
end

