-- ==== Sys2Proof/Certificates/Slice0/Obligations.lean ====
section
/-! DEFINITION. The statements for the provers, one per rule or law of the spec. "The reset deserializer" is
`WaitHeader1`, empty buffer, counter 0 (10_state.md R33). -/

open Sys2Proof Sys2Proof.Machine

/-! ## Encoding, decoding, the step -/

/-- Every well-formed operation is read back from the request that presents it, with every operand (R80, R101, R103). -/
def Obligations.DecodeReadsBackEveryEncodedOperation : Prop :=
  ∀ i : Instr, i.wf = true → decode (encode i) = .ok i

/-- Words written out from the spec's encodings: the five FRAME codes (R85, R80), two RXSTEP words of program P1, CBOP and
VDOP words of R103, the rows of the words without selecting bits (R102), and requests with operands. -/
def Obligations.WrittenOutWordsDecode : Prop :=
  decodeTableWord 40 0xFFFF010201 = some (.ping ⟨1, 2, [0]⟩) ∧
  decodeTableWord 40 0xFFFF010402 = some (.read ⟨1, 4, [0, 0, 0]⟩) ∧
  decodeTableWord 40 0xFFFF010303 = some (.write ⟨1, 3, [0, 0]⟩) ∧
  decodeTableWord 40 0xFFFF010204 = some (.regwrite ⟨1, 2, [0]⟩) ∧
  decodeTableWord 40 0xFFFF010205 = some (.action ⟨1, 2, [0]⟩) ∧
  decode (.wire [0xFF, 0xFF, 0x01, 0x04, 0x02, 0x38, 0x02, 0xBE]) = .ok (.read ⟨1, 4, [0x38, 0x02, 0xBE]⟩) ∧
  decodeTableWord 16 0x0FF = some (.rxByte 0xFF) ∧
  decodeTableWord 16 0x5EC = some (.rxByte 0xEC) ∧
  decodeTableWord 16 0x6EC = none ∧
  decodeWord .cbOp 0xC = [.cbAction 0] ∧ decodeWord .cbOp 0xD = [] ∧
  decodeWord .vdOp 0x8 = [.vdLoad []] ∧ decodeWord .vdOp 0x9 = [] ∧
  decodeWord .rxCtl 0x0 = [.rxReset, .rxFeed []] ∧ decodeWord .chk 0x0 = [.chkGen [], .chkVerify [] 0] ∧
  decodeWord .ser 0x0 = [.ser ⟨0, 0, []⟩] ∧
  decode (.cb 0x2 { servoId := 1, position := 4095, speed := 1000, acc := 50 }) = .ok (.cbMove 1 4095 1000 50) ∧
  decode (.vd 0x4 [0xFF, 0x0F]) = .ok (.vdPosition [0xFF, 0x0F])

/-- A step performs the operation the next request decodes to, on the state without that request. -/
def Obligations.StepRunsTheDecodedOperation : Prop :=
  ∀ (s : State) (r : Request) (rest : List Request) (i : Instr),
    s.pending = r :: rest → decode r = .ok i → step s = exec i { s with pending := rest }

/-- R34: one cycle at the deserializer's ports is RX.RESET when a reset input is 1, a byte presented with it being
discarded (R239 f, the spec's decision D7), otherwise RX.BYTE of a valid byte, otherwise the state is held and no packet
is shown. That the model also holds the state when the host presents nothing at all is its own choice (log 3). -/
def Obligations.DeserializerPortsSelectTheOperation : Prop :=
  (∀ (rst clr valid : Bool) (b : Byte) (s : State) (rest : List Request),
    s.pending = .rxCycle ⟨rst, clr, valid, b⟩ :: rest →
      ((rst = true ∨ clr = true) → step s = exec .rxReset { s with pending := rest }) ∧
      (rst = false → clr = false → valid = true → step s = exec (.rxByte b) { s with pending := rest }) ∧
      (rst = false → clr = false → valid = false →
        step s = .next { s with pending := rest, outputs := s.outputs ++ [.noOutput] })) ∧
  ∀ s : State, s.pending = [] → step s = .next s

/-- Unused select codes select no operation and are refused (R103): `cb_op` 13..15, `vd_op` 9..15. -/
def Obligations.UnusedSelectCodesAreRefused : Prop :=
  (∀ (s : State) (op : BitVec 4) (a : CbArgs) (rest : List Request),
    s.pending = .cb op a :: rest → 13 ≤ op.toNat → step s = .refused (.unusedCbOp op)) ∧
  ∀ (s : State) (op : BitVec 4) (ps : List Byte) (rest : List Request),
    s.pending = .vd op ps :: rest → 9 ≤ op.toNat → step s = .refused (.unusedVdOp op)

/-! ## Reset and the invariant -/

/-- What reset leaves: the reset deserializer, and no packet and no error output yet (R33). That nothing is pending is the
model's choice (log 1). -/
def Obligations.ResetValues : Prop :=
  State.reset.rx = { st := .waitHeader1, buf := [], rem := 0 } ∧ State.reset.outputs = [] ∧ State.reset.pending = []

/-- The invariant holds at reset. -/
def Obligations.ResetMeetsInvariant : Prop :=
  State.reset.inv = true

/-- Every step from a state of the invariant, reachable or not, gives a state of the invariant: the buffer and the
counter have the shape R25 tabulates, and every emitted packet has byte fields and at most 62 parameters (R143). -/
def Obligations.StepKeepsInvariant : Prop :=
  ∀ s s' : State, s.inv = true → step s = .next s' → s'.inv = true

/-- What the invariant says of the shape in the three states that hold bytes (R25): in `WaitPayload`
`len(buf) + rem = L + 1` with `rem >= 1`, in `WaitChecksum` `len(buf) = L + 1` with `rem = 0`, and never more than 65
bytes between steps (R23). -/
def Obligations.InvariantGivesTheShapes : Prop :=
  ∀ d : Deser, d.wf = true →
    d.buf.length ≤ 65 ∧
    (d.st = .waitHeader1 ∨ d.st = .waitHeader2 ∨ d.st = .waitId → d.buf = [] ∧ d.rem = 0) ∧
    (d.st = .waitLength → ∃ id, d.buf = [id] ∧ d.rem = 0) ∧
    (d.st = .waitPayload → ∃ id len payload, d.buf = id :: len :: payload ∧ 2 ≤ len.toNat ∧ len.toNat ≤ 64 ∧
      1 ≤ d.rem.val ∧ d.buf.length + d.rem.val = len.toNat + 1) ∧
    (d.st = .waitChecksum → ∃ id len payload, d.buf = id :: len :: payload ∧ 2 ≤ len.toNat ∧ len.toNat ≤ 64 ∧
      d.rem = 0 ∧ d.buf.length = len.toNat + 1)

/-- Nothing blocks and nothing traps (R281, R130): from a state of the invariant every step is safe, but for the unused
select codes of R103. -/
def Obligations.StepStopsOnlyOnUnusedSelectCodes : Prop :=
  ∀ s : State, s.inv = true →
    SafeStep s ∨
    (∃ op a rest, s.pending = .cb op a :: rest ∧ 13 ≤ op.toNat) ∨
    (∃ op ps rest, s.pending = .vd op ps :: rest ∧ 9 ≤ op.toNat)

/-! ## The deserializer's step -/

/-- R132: in `WaitHeader1` a byte `FF` gives `WaitHeader2`, another byte is discarded; buffer and counter not written. -/
def Obligations.WaitHeader1SeeksTheHeaderByte : Prop :=
  ∀ (b : Byte) (s : State), s.rx.st = .waitHeader1 →
    exec (.rxByte b) s = .next { s with
      rx := { s.rx with st := if b = 0xFF then .waitHeader2 else .waitHeader1 }
      outputs := s.outputs ++ [.noOutput] }

/-- R133: in `WaitHeader2` a byte `FF` gives `WaitId`; a mismatch aborts and the byte is not examined again. -/
def Obligations.WaitHeader2NeedsASecondHeaderByte : Prop :=
  ∀ (b : Byte) (s : State), s.rx.st = .waitHeader2 →
    exec (.rxByte b) s = .next { s with
      rx := if b = 0xFF then { s.rx with st := .waitId } else { st := .waitHeader1, buf := [], rem := 0 }
      outputs := s.outputs ++ [.noOutput] }

/-- R134: in `WaitId` every byte is captured as the id. -/
def Obligations.WaitIdCapturesAnyByte : Prop :=
  ∀ (b : Byte) (s : State), s.rx.st = .waitId →
    exec (.rxByte b) s = .next { s with
      rx := { st := .waitLength, buf := [b], rem := s.rx.rem }
      outputs := s.outputs ++ [.noOutput] }

/-- R135: in `WaitLength` a length of 2..64 is taken and the counter loaded with `length - 1`; any other aborts. -/
def Obligations.WaitLengthBoundsTheFrame : Prop :=
  ∀ (b : Byte) (s : State), s.rx.st = .waitLength →
    (2 ≤ b.toNat ∧ b.toNat ≤ 64 → ∃ r : Fin 64, r.val = b.toNat - 1 ∧
      exec (.rxByte b) s = .next { s with
        rx := { st := .waitPayload, buf := s.rx.buf ++ [b], rem := r }
        outputs := s.outputs ++ [.noOutput] }) ∧
    (b.toNat < 2 ∨ 64 < b.toNat →
      exec (.rxByte b) s = .next { s with
        rx := { st := .waitHeader1, buf := [], rem := 0 }
        outputs := s.outputs ++ [.noOutput] })

/-- R136: in `WaitPayload` a byte is appended and the counter goes down by one, to `WaitChecksum` when it reaches zero; a
counter already zero aborts (the defensive arm, which no reachable state takes). -/
def Obligations.WaitPayloadCountsDown : Prop :=
  ∀ (b : Byte) (s : State), s.rx.st = .waitPayload →
    (s.rx.rem.val = 0 →
      exec (.rxByte b) s = .next { s with
        rx := { st := .waitHeader1, buf := [], rem := 0 }
        outputs := s.outputs ++ [.noOutput] }) ∧
    (1 ≤ s.rx.rem.val → ∃ r : Fin 64, r.val + 1 = s.rx.rem.val ∧
      exec (.rxByte b) s = .next { s with
        rx := { st := if r.val = 0 then .waitChecksum else .waitPayload, buf := s.rx.buf ++ [b], rem := r }
        outputs := s.outputs ++ [.noOutput] })

/-- R137, R142: in `WaitChecksum`, holding `[id, L] ++ payload` as R25 says, the matching checksum byte emits the packet
of id, instruction code and parameters, any other byte emits nothing; the state is the reset state in both cases. -/
def Obligations.WaitChecksumEmitsOrDrops : Prop :=
  ∀ (b id len code : Byte) (params : List Byte) (s : State),
    s.rx = { st := .waitChecksum, buf := id :: len :: code :: params, rem := 0 } →
    2 ≤ len.toNat → len.toNat ≤ 64 → params.length + 2 = len.toNat →
    exec (.rxByte b) s = .next { s with
      rx := { st := .waitHeader1, buf := [], rem := 0 }
      outputs := s.outputs ++
        [if b = checksum (id :: len :: code :: params) then
          .emit { servoId := (id.toNat : Int), instruction := (code.toNat : Int),
                  params := params.map fun v => (v.toNat : Int) }
         else .noOutput] }

/-- R137 corner case 5: in `WaitChecksum` a value that violates R25 is refused. That the model refuses it, and does not
carry the invariant in the type, is the model's choice of the two the rule gives (log 12). -/
def Obligations.WaitChecksumOutsideTheInvariantIsRefused : Prop :=
  ∀ (b : Byte) (s : State), s.rx.st = .waitChecksum → s.rx.wf = false →
    exec (.rxByte b) s = .refused .rxOutsideInvariant

/-- R130: within R25 the step is total, changes nothing but the deserializer, and outputs at most one packet. -/
def Obligations.RxByteIsTotal : Prop :=
  ∀ (b : Byte) (s : State), s.rx.wf = true →
    ∃ (d : Deser) (o : Output), exec (.rxByte b) s = .next { s with rx := d, outputs := s.outputs ++ [o] } ∧
      d.wf = true ∧ (o = .noOutput ∨ ∃ p, o = .emit p)

/-- R65, R137: a step that emits a packet stands in `WaitChecksum`, its byte is the checksum of the buffer, and it leaves
the reset state; no other byte emits anything. -/
def Obligations.PacketsAppearOnlyAtTheirChecksumByte : Prop :=
  ∀ (b : Byte) (s t : State), exec (.rxByte b) s = .next t → t.emitted ≠ s.emitted →
    s.rx.st = .waitChecksum ∧ b = checksum s.rx.buf ∧ t.rx = { st := .waitHeader1, buf := [], rem := 0 } ∧
      ∃ p, t.emitted = s.emitted ++ [p]

/-- R236, R241, R242: a byte with a drop cause leaves the reset state and outputs nothing; a byte without one either
leaves the machine inside a frame or emits a packet. -/
def Obligations.DropsAbortSilently : Prop :=
  ∀ (b : Byte) (s : State),
    (∀ c, dropCause b s.rx = some c → s.rx.wf = true ∨ c = .underflow →
      exec (.rxByte b) s = .next { s with
        rx := { st := .waitHeader1, buf := [], rem := 0 }
        outputs := s.outputs ++ [.noOutput] }) ∧
    (dropCause b s.rx = none → s.rx.wf = true →
      ∃ t, exec (.rxByte b) s = .next t ∧ (t.rx.st ≠ .waitHeader1 ∨ ∃ p, t.emitted = s.emitted ++ [p]))

/-- R149: testing the byte rejected in `WaitHeader2` once more as a header-1 candidate would change nothing. -/
def Obligations.HeaderTwoFallbackHasNoObservableAlternative : Prop :=
  ∀ (b : Byte) (s : State), s.rx.st = .waitHeader2 → b ≠ 0xFF →
    ∃ t u, exec (.rxByte b) s = .next t ∧ exec (.rxByte b) t = .next u ∧
      u.rx = t.rx ∧ t.emitted = s.emitted ∧ u.emitted = s.emitted

/-- R140: RX.RESET in any state, within R25 or not, leaves the known-empty state of `abort()` and outputs no packet; and no
operation of a pure unit writes deserializer state. -/
def Obligations.RxResetEmptiesFromAnyState : Prop :=
  (∀ s : State, exec .rxReset s = .next { s with
    rx := { st := .waitHeader1, buf := [], rem := 0 }
    outputs := s.outputs ++ [.noOutput] }) ∧
  ∀ (i : Instr) (s t : State), i.isPure = true → exec i s = .next t → t.rx = s.rx

/-! ## Feeds and frames -/

/-- R141: RX.FEED of a chunk is RX.BYTE of its bytes in order: it reaches the state that presenting the bytes one cycle
each reaches, and returns the packets those steps emit, in order. It completes from every state within R25, for every
chunk, the empty one included (D22). -/
def Obligations.FeedIsTheRunOfItsBytes : Prop :=
  ∀ (chunk : List Byte) (s : State), s.rx.wf = true →
    ∃ (d : Deser) (ps : List Packet) (os : List Output),
      exec (.rxFeed chunk) s = .next { s with rx := d, outputs := s.outputs ++ [.fed ps] } ∧
      Host.Core.run Sys2Proof.core chunk.length
          ({ s with pending := chunk.map byteCycle ++ s.pending } : State) =
        (.next { s with rx := d, outputs := s.outputs ++ os } : Host.Outcome State Fault Refusal) ∧
      os.flatMap Output.emitted = ps ∧ (chunk = [] → d = s.rx ∧ ps = [])

/-- Chunk boundaries are unobservable: feeding the pieces of any partition one after another reaches the same deserializer
state and emits the same packets in the same order as feeding the whole at once. The law is the spec's inference from R141
(in R146, "for every state `d`"); here it is said of the states within R25, outside which the model refuses (log 12). -/
def Obligations.ChunkBoundariesAreUnobservable : Prop :=
  ∀ (chunks : List (List Byte)) (s : State), s.rx.wf = true →
    ∃ (d : Deser) (ps : List Packet) (os : List Output),
      exec (.rxFeed chunks.flatten) s = .next { s with rx := d, outputs := s.outputs ++ [.fed ps] } ∧
      Host.Core.run Sys2Proof.core chunks.length
          ({ s with pending := chunks.map Request.rxChunk ++ s.pending } : State) =
        (.next { s with rx := d, outputs := s.outputs ++ os } : Host.Outcome State Fault Refusal) ∧
      os.flatMap Output.emitted = ps

/-- R145: for every valid packet, feeding the frame SER makes of it to a reset deserializer returns exactly that packet
and leaves the reset state. -/
def Obligations.SerializedPacketComesBack : Prop :=
  ∀ (p : Packet) (s : State), p.valid = true → s.rx = { st := .waitHeader1, buf := [], rem := 0 } →
    ∃ bytes, exec (.ser p) s = .next { s with outputs := s.outputs ++ [.frame bytes] } ∧
      exec (.rxFeed bytes) s = .next { s with outputs := s.outputs ++ [.fed [p]] }

/-- R148: two serialized frames fed as one chunk return both packets in order. -/
def Obligations.BackToBackFramesComeBack : Prop :=
  ∀ (p q : Packet) (s : State), p.valid = true → q.valid = true →
    s.rx = { st := .waitHeader1, buf := [], rem := 0 } →
    ∃ bs cs, exec (.ser p) s = .next { s with outputs := s.outputs ++ [.frame bs] } ∧
      exec (.ser q) s = .next { s with outputs := s.outputs ++ [.frame cs] } ∧
      exec (.rxFeed (bs ++ cs)) s = .next { s with outputs := s.outputs ++ [.fed [p, q]] }

/-- Every packet a feed from the reset state returns was on the wire as a whole frame with a legal length byte and the
right checksum (R138, R142, R143). -/
def Obligations.EmittedPacketsWereFramesOnTheWire : Prop :=
  ∀ (bytes : List Byte) (s t : State) (ps : List Packet),
    s.rx = { st := .waitHeader1, buf := [], rem := 0 } →
    exec (.rxFeed bytes) s = .next t → t.outputs = s.outputs ++ [.fed ps] →
    ∀ p ∈ ps, ∃ (pre post params : List Byte) (id len code : Byte),
      bytes = pre ++ ([0xFF, 0xFF, id, len, code] ++ params ++ [checksum (id :: len :: code :: params)]) ++ post ∧
      len.toNat = params.length + 2 ∧ len.toNat ≤ 64 ∧
      p = { servoId := (id.toNat : Int), instruction := (code.toNat : Int),
            params := params.map fun v => (v.toNat : Int) }

/-- R143, R147: a reset deserializer emits every frame with a legal length byte and a matching checksum, whatever its id
(255 too), its instruction code, and up to 62 parameters; with any other checksum byte it returns nothing. Either way it
is in the reset state after the checksum byte. -/
def Obligations.WholeFramesAreEmittedOrDropped : Prop :=
  ∀ (id len code c : Byte) (params : List Byte) (s : State),
    s.rx = { st := .waitHeader1, buf := [], rem := 0 } → params.length + 2 = len.toNat → len.toNat ≤ 64 →
    exec (.rxFeed ([0xFF, 0xFF, id, len, code] ++ params ++ [c])) s =
      .next { s with outputs := s.outputs ++
        [.fed (if c = checksum (id :: len :: code :: params) then
          [{ servoId := (id.toNat : Int), instruction := (code.toNat : Int),
             params := params.map fun v => (v.toNat : Int) }]
          else [])] }

/-- R150 (a): bytes that leave the deserializer in the reset state do not disturb the frame after them; in particular
noise without an `FF` byte is ignored. -/
def Obligations.LeadingNoiseIsIgnored : Prop :=
  ∀ (z : List Byte) (p : Packet) (s : State), p.valid = true →
    s.rx = { st := .waitHeader1, buf := [], rem := 0 } →
    ∃ bytes, exec (.ser p) s = .next { s with outputs := s.outputs ++ [.frame bytes] } ∧
      (∀ ps, exec (.rxFeed z) s = .next { s with outputs := s.outputs ++ [.fed ps] } →
        exec (.rxFeed (z ++ bytes)) s = .next { s with outputs := s.outputs ++ [.fed (ps ++ [p])] }) ∧
      (0xFF ∉ z → exec (.rxFeed (z ++ bytes)) s = .next { s with outputs := s.outputs ++ [.fed [p]] })

/-- R272: `n` stray `FF` bytes directly before a frame: the frame is decoded exactly when `n` is a multiple of 4. -/
def Obligations.StrayHeaderBytesLoseTheFrameUnlessInFours : Prop :=
  ∀ (n : Nat) (p : Packet) (s : State), p.valid = true →
    s.rx = { st := .waitHeader1, buf := [], rem := 0 } →
    ∃ (bytes : List Byte) (d : Deser) (ps : List Packet),
      exec (.ser p) s = .next { s with outputs := s.outputs ++ [.frame bytes] } ∧
      exec (.rxFeed (List.replicate n 0xFF ++ bytes)) s =
        .next { s with rx := d, outputs := s.outputs ++ [.fed ps] } ∧
      (n % 4 = 0 → ps = [p] ∧ d = s.rx) ∧ (n % 4 ≠ 0 → p ∉ ps)

/-- R150 (b), R273: after a header pair, an id and a legal length byte `L`, the deserializer consumes exactly `L` more
bytes whatever they are: it is not back in `WaitHeader1` before the last of them and is in the reset state after it. -/
def Obligations.AFrameConsumesExactlyItsLength : Prop :=
  ∀ (id len : Byte) (body : List Byte) (s : State),
    s.rx = { st := .waitHeader1, buf := [], rem := 0 } → 2 ≤ len.toNat → len.toNat ≤ 64 →
    body.length = len.toNat →
    (∀ k, k < len.toNat → ∃ d : Deser, d.st ≠ .waitHeader1 ∧
      exec (.rxFeed ([0xFF, 0xFF, id, len] ++ body.take k)) s =
        .next { s with rx := d, outputs := s.outputs ++ [.fed []] }) ∧
    ∃ ps, exec (.rxFeed ([0xFF, 0xFF, id, len] ++ body)) s =
      .next { s with outputs := s.outputs ++ [.fed ps] }

/-- R150 (b), R244: from every state within R25, whatever 68 bytes arrive, the deserializer is in the reset state after
one of them. -/
def Obligations.BackInResetWithinSixtyEightBytes : Prop :=
  ∀ (bytes : List Byte) (s : State), s.rx.wf = true → bytes.length = 68 →
    ∃ k, 1 ≤ k ∧ k ≤ 68 ∧ ∃ ps, exec (.rxFeed (bytes.take k)) s = .next { s with
      rx := { st := .waitHeader1, buf := [], rem := 0 }
      outputs := s.outputs ++ [.fed ps] }

/-- The FRAME rows (R85, R89, R90; that receiving the frame is their meaning is DEDUCED, log 5): from every state within
R25 they complete, change nothing but the deserializer, and do what RX.FEED of the frame's bytes does. -/
def Obligations.FrameRowsReceiveTheirBytes : Prop :=
  ∀ (f : Frame) (s : State), s.rx.wf = true →
    ∀ q ∈ [(Instr.ping f, (1 : Byte)), (.read f, 2), (.write f, 3), (.regwrite f, 4), (.action f, 5)],
      ∃ (d : Deser) (ps : List Packet),
        exec q.1 s = .next { s with rx := d, outputs := s.outputs ++ [.fed ps] } ∧ d.wf = true ∧
        exec (.rxFeed ([0xFF, 0xFF, f.servoId, f.length, q.2] ++ f.tail)) s =
          .next { s with rx := d, outputs := s.outputs ++ [.fed ps] }

/-- The FRAME rows at a reset deserializer: a frame with the right checksum is emitted with its instruction code, one with
a wrong checksum and one with an illegal length byte leave no packet (R85, R98, R143, R147; log 5). -/
def Obligations.FrameRowsEmitTheirInstructionCode : Prop :=
  ∀ (f : Frame) (s : State), f.wf = true → s.rx = { st := .waitHeader1, buf := [], rem := 0 } →
    ∀ q ∈ [(Instr.ping f, (1 : Byte)), (.read f, 2), (.write f, 3), (.regwrite f, 4), (.action f, 5)],
      (∀ (params : List Byte) (c : Byte), f.tail = params ++ [c] →
        exec q.1 s = .next { s with outputs := s.outputs ++
          [.fed (if c = checksum (f.servoId :: f.length :: q.2 :: params) then
            [{ servoId := (f.servoId.toNat : Int), instruction := (q.2.toNat : Int),
               params := params.map fun v => (v.toNat : Int) }]
            else [])] }) ∧
      (f.tail = [] → exec q.1 s = .next { s with outputs := s.outputs ++ [.fed []] })

/-! ## The checksum -/

/-- R120, R123: CHK.GEN outputs `(~sum) & 0xFF` of the exact sum of its bytes (`~x` is `-x - 1`, R11), CHK.VERIFY outputs
true exactly when that byte equals the given one; neither changes anything else. -/
def Obligations.ChecksumUnitsFollowTheSum : Prop :=
  ∀ (bytes : List Byte) (c : Byte) (s : State), ∃ (g : Byte) (ok : Bool),
    exec (.chkGen bytes) s = .next { s with outputs := s.outputs ++ [.byte g] } ∧
    (g.toNat : Int) = (-((bytes.map BitVec.toNat).sum : Int) - 1) % 256 ∧
    exec (.chkVerify bytes c) s = .next { s with outputs := s.outputs ++ [.verdict ok] } ∧
    (ok = true ↔ g = c)

/-- R121: the checksum is the inverted running 8-bit sum, and the XOR of the truncated sum with FF, and does not depend
on the order of the bytes. -/
def Obligations.ChecksumFormsAgree : Prop :=
  (∀ s : List Byte, checksum s = 0xFF - runningSum s ∧
    checksum s = BitVec.ofNat 8 ((s.map BitVec.toNat).sum) ^^^ 0xFF) ∧
  ∀ s t : List Byte, s.Perm t → checksum s = checksum t

/-- R124, R125 (a), (b): a checksum byte verifies exactly when the sum of the covered bytes and that byte is 255 modulo
256; for given covered bytes exactly one byte verifies; changing one covered byte to another value changes the checksum. -/
def Obligations.ChecksumDetectsOneChangedByte : Prop :=
  (∀ (covered : List Byte) (c : Byte),
    verifies covered c = true ↔ ((covered.map BitVec.toNat).sum + c.toNat) % 256 = 255) ∧
  (∀ covered : List Byte, ∃ c, verifies covered c = true ∧ ∀ c', verifies covered c' = true → c' = c) ∧
  ∀ (l r : List Byte) (x y : Byte), x ≠ y → checksum (l ++ x :: r) ≠ checksum (l ++ y :: r)

/-! ## The serializer -/

/-- R163: for a packet that passes the checks SER outputs header pair, id, `len(params) + 2`, instruction code,
parameters and the checksum of everything after the header, and changes nothing else. -/
def Obligations.SerEncodesValidPackets : Prop :=
  ∀ (id code : Byte) (params : List Byte) (s : State), id.toNat ≤ 254 → params.length ≤ 60 →
    exec (.ser { servoId := (id.toNat : Int), instruction := (code.toNat : Int),
                 params := params.map fun v => (v.toNat : Int) }) s =
      .next { s with outputs := s.outputs ++
        [.frame ([0xFF, 0xFF, id, BitVec.ofNat 8 (params.length + 2), code] ++ params ++
          [checksum (id :: BitVec.ofNat 8 (params.length + 2) :: code :: params)])] }

/-- R161, R162, R164: on a packet that fails a check SER outputs the error of the first failing check in the order id,
instruction, parameter count, parameter value (the least failing index), and no frame. The order is the spec's decision
D10. -/
def Obligations.SerReportsTheFirstFailingCheck : Prop :=
  ∀ (p : Packet) (s : State),
    (p.servoId < 0 ∨ 254 < p.servoId →
      exec (.ser p) s = .next { s with outputs := s.outputs ++ [.error (.servoId p.servoId)] }) ∧
    (0 ≤ p.servoId → p.servoId ≤ 254 → p.instruction < 0 ∨ 255 < p.instruction →
      exec (.ser p) s = .next { s with outputs := s.outputs ++ [.error (.instruction p.instruction)] }) ∧
    (0 ≤ p.servoId → p.servoId ≤ 254 → 0 ≤ p.instruction → p.instruction ≤ 255 → 60 < p.params.length →
      exec (.ser p) s = .next { s with outputs := s.outputs ++ [.error (.paramCount p.params.length)] }) ∧
    (0 ≤ p.servoId → p.servoId ≤ 254 → 0 ≤ p.instruction → p.instruction ≤ 255 → p.params.length ≤ 60 →
      ∀ (l r : List Int) (v : Int), p.params = l ++ v :: r → (∀ u ∈ l, 0 ≤ u ∧ u ≤ 255) → v < 0 ∨ 255 < v →
        exec (.ser p) s = .next { s with outputs := s.outputs ++ [.error (.paramValue l.length)] })

/-- R84, R161: SER outputs a frame exactly for the valid packets, and otherwise one of the errors 1 to 4, never
`E_FRAME_LENGTH` (R165). -/
def Obligations.SerAcceptsExactlyTheValidPackets : Prop :=
  ∀ (p : Packet) (s : State), ∃ o,
    exec (.ser p) s = .next { s with outputs := s.outputs ++ [o] } ∧
    (p.valid = true → ∃ bytes, o = .frame bytes) ∧
    (p.valid = false → ∃ e : ErrKind, o = .error e ∧ 1 ≤ e.code.toNat ∧ e.code.toNat ≤ 4)

/-- R88, R167 (c): a frame SER outputs has `len(params) + 6` bytes, 6 to 66, its length byte is in 2..62, and its last
byte verifies over the bytes after the header. -/
def Obligations.SerFramesHaveTheFrameShape : Prop :=
  ∀ (p : Packet) (bytes : List Byte) (s : State),
    exec (.ser p) s = .next { s with outputs := s.outputs ++ [.frame bytes] } →
    bytes.length = p.params.length + 6 ∧ 6 ≤ bytes.length ∧ bytes.length ≤ 66 ∧
    ∃ (id len : Byte) (rest : List Byte) (c : Byte),
      bytes = [0xFF, 0xFF, id, len] ++ rest ++ [c] ∧ 2 ≤ len.toNat ∧ len.toNat ≤ 62 ∧
      rest.length + 1 = len.toNat ∧ verifies (id :: len :: rest) c = true

/-- R167 (b): the frame determines the packet. -/
def Obligations.SerIsInjective : Prop :=
  ∀ (p q : Packet) (bytes : List Byte) (s : State),
    exec (.ser p) s = .next { s with outputs := s.outputs ++ [.frame bytes] } →
    exec (.ser q) s = .next { s with outputs := s.outputs ++ [.frame bytes] } → p = q

/-! ## The command encoder -/

/-- R186, R188: CB.READ builds the packet with code 2 and the parameters `[address, size]`, CB.WRITE the packet with code 3
and the parameters `[address] ++ data`; nothing is checked. -/
def Obligations.ReadAndWriteBuildTheirPackets : Prop :=
  ∀ (id addr size : Int) (data : List Int) (s : State),
    exec (.cbRead id addr size) s = .next { s with outputs := s.outputs ++
      [.packet { servoId := id, instruction := 2, params := [addr, size] }] } ∧
    exec (.cbWrite id addr data) s = .next { s with outputs := s.outputs ++
      [.packet { servoId := id, instruction := 3, params := [addr] ++ data }] }

/-- R189, R185, R201: CB.MOVE with a position of 0..4095 builds a write of eight parameters: the acceleration register's
address, then acc, position low and high, two zeros, speed low and high; acc and speed are truncated, whatever their
value (for negatives the spec's decision D13; the address byte first is its decision D14). Otherwise it reports the
position and builds nothing, whatever the id. -/
def Obligations.CbMoveBuildsOrRefusesThePosition : Prop :=
  ∀ (id pos speed acc : Int) (s : State),
    (0 ≤ pos → pos ≤ 4095 →
      exec (.cbMove id pos speed acc) s = .next { s with outputs := s.outputs ++
        [.packet { servoId := id, instruction := 3,
                   params := [((Config.regAddr .acceleration).toNat : Int), acc % 256, pos % 256, pos / 256, 0, 0,
                     speed % 256, speed / 256 % 256] }] }) ∧
    (pos < 0 ∨ 4095 < pos →
      exec (.cbMove id pos speed acc) s = .next { s with outputs := s.outputs ++ [.error (.positionRange pos)] })

/-- R190: CB.ROTATE builds the same layout with the position fields zero, and is CB.MOVE to position 0. -/
def Obligations.CbRotateIsMoveWithZeroPosition : Prop :=
  ∀ (id speed acc : Int) (s : State),
    exec (.cbRotate id speed acc) s = .next { s with outputs := s.outputs ++
      [.packet { servoId := id, instruction := 3,
                 params := [((Config.regAddr .acceleration).toNat : Int), acc % 256, 0, 0, 0, 0,
                   speed % 256, speed / 256 % 256] }] } ∧
    exec (.cbRotate id speed acc) s = exec (.cbMove id 0 speed acc) s

/-- R191 to R196: each typed read is CB.READ at the register's address with the register's width. -/
def Obligations.TypedReadsAreReadsOfTheirRegister : Prop :=
  ∀ (id : Int) (s : State),
    ∀ q ∈ [(Instr.cbRdPosition id, RegName.position, (2 : Int)), (.cbRdSpeed id, .speed, 2),
        (.cbRdTemperature id, .temperature, 1), (.cbRdVoltage id, .voltage, 1), (.cbRdLoad id, .load, 2),
        (.cbRdCurrent id, .current, 2)],
      exec q.1 s = .next { s with outputs := s.outputs ++
        [.packet { servoId := id, instruction := 2,
                   params := [((Config.regAddr q.2.1).toNat : Int), q.2.2] }] } ∧
      exec q.1 s = exec (.cbRead id ((Config.regAddr q.2.1).toNat : Int) q.2.2) s

/-- The three builders whose layout is general knowledge, as R197 to R199 give it and mark it (93 G2; log 22). -/
def Obligations.PingRegwriteActionBuildTheirPackets : Prop :=
  ∀ (id addr : Int) (data : List Int) (s : State),
    exec (.cbPing id) s = .next { s with outputs := s.outputs ++
      [.packet { servoId := id, instruction := 1, params := [] }] } ∧
    exec (.cbRegwrite id addr data) s = .next { s with outputs := s.outputs ++
      [.packet { servoId := id, instruction := 4, params := [addr] ++ data }] } ∧
    exec (.cbAction id) s = .next { s with outputs := s.outputs ++
      [.packet { servoId := id, instruction := 5, params := [] }] }

/-- R200: with an id of 0..254 the packets of CB.MOVE and CB.ROTATE always serialize, to 14 bytes, and those of the typed
reads to 8, whatever the register addresses are; a write of `k` data bytes, `k <= 59`, to `k + 7` bytes; one of more than
59 is refused by its count; id 255 is refused by SER and not by the builder. That the id is what SER reports there also
when the count fails too rests on the order of the checks, the spec's decision D10 (log 19). CB.READ, CB.PING, CB.REGWRITE
and CB.ACTION are the subject of `BuiltFramesAreTheirTableRows`, `PingRegwriteActionBuildTheirPackets` and
`SerEncodesValidPackets`. -/
def Obligations.BuiltCommandsSerialize : Prop :=
  ∀ (id : Int) (s : State), 0 ≤ id → id ≤ 254 →
    (∀ (pos speed acc : Int), 0 ≤ pos → pos ≤ 4095 → ∃ p bytes,
      exec (.cbMove id pos speed acc) s = .next { s with outputs := s.outputs ++ [.packet p] } ∧
      exec (.ser p) s = .next { s with outputs := s.outputs ++ [.frame bytes] } ∧ bytes.length = 14) ∧
    (∀ (speed acc : Int), ∃ p bytes,
      exec (.cbRotate id speed acc) s = .next { s with outputs := s.outputs ++ [.packet p] } ∧
      exec (.ser p) s = .next { s with outputs := s.outputs ++ [.frame bytes] } ∧ bytes.length = 14) ∧
    (∀ i ∈ [Instr.cbRdPosition id, .cbRdSpeed id, .cbRdTemperature id, .cbRdVoltage id, .cbRdLoad id, .cbRdCurrent id],
      ∃ p bytes, exec i s = .next { s with outputs := s.outputs ++ [.packet p] } ∧
        exec (.ser p) s = .next { s with outputs := s.outputs ++ [.frame bytes] } ∧ bytes.length = 8) ∧
    (∀ (addr : Byte) (data : List Byte), ∃ p,
      exec (.cbWrite id (addr.toNat : Int) (data.map fun v => (v.toNat : Int))) s =
        .next { s with outputs := s.outputs ++ [.packet p] } ∧
      (data.length ≤ 59 → ∃ bytes,
        exec (.ser p) s = .next { s with outputs := s.outputs ++ [.frame bytes] } ∧ bytes.length = data.length + 7) ∧
      (59 < data.length →
        exec (.ser p) s = .next { s with outputs := s.outputs ++ [.error (.paramCount (data.length + 1))] }) ∧
      exec (.ser { p with servoId := 255 }) s = .next { s with outputs := s.outputs ++ [.error (.servoId 255)] })

/-- The frame of a built read is the READ row of the opcode table, and of a built write the WRITE row (R89, R90, R102). -/
def Obligations.BuiltFramesAreTheirTableRows : Prop :=
  ∀ (id addr size : Byte) (data : List Byte) (s : State), id.toNat ≤ 254 → data.length ≤ 59 →
    (∃ p f c, exec (.cbRead (id.toNat : Int) (addr.toNat : Int) (size.toNat : Int)) s =
        .next { s with outputs := s.outputs ++ [.packet p] } ∧
      exec (.ser p) s = .next { s with outputs := s.outputs ++ [.frame f] } ∧
      decode (.wire f) = .ok (.read ⟨id, 4, [addr, size, c]⟩)) ∧
    (∃ p f c, exec (.cbWrite (id.toNat : Int) (addr.toNat : Int) (data.map fun v => (v.toNat : Int))) s =
        .next { s with outputs := s.outputs ++ [.packet p] } ∧
      exec (.ser p) s = .next { s with outputs := s.outputs ++ [.frame f] } ∧
      decode (.wire f) = .ok (.write ⟨id, BitVec.ofNat 8 (data.length + 3), addr :: data ++ [c]⟩))

/-! ## The value decoder -/

/-- R211, R217, R212, R216, R210: VD.U8 and VD.TEMPERATURE give the one byte, unsigned; VD.U16 and VD.POSITION give
`params[0] + 256 * params[1]`, unsigned and not clamped; each reports any other number of parameters than its width. -/
def Obligations.UnsignedDecodersGiveThePlainValue : Prop :=
  ∀ (params : List Byte) (s : State),
    (∀ i ∈ [Instr.vdU8 params, .vdTemperature params],
      (∀ b, params = [b] → exec i s = .next { s with outputs := s.outputs ++ [.value (b.toNat : Int)] }) ∧
      (params.length ≠ 1 →
        exec i s = .next { s with outputs := s.outputs ++ [.error (.lengthMismatch 1 params.length)] })) ∧
    (∀ i ∈ [Instr.vdU16 params, .vdPosition params],
      (∀ lo hi, params = [lo, hi] →
        exec i s = .next { s with outputs := s.outputs ++ [.value ((lo.toNat : Int) + 256 * (hi.toNat : Int))] }) ∧
      (params.length ≠ 2 →
        exec i s = .next { s with outputs := s.outputs ++ [.error (.lengthMismatch 2 params.length)] }))

/-- R213, R218 to R220, R210: VD.S16, VD.SPEED, VD.CURRENT and VD.LOAD read sign-magnitude: with bit 15 (bit 7 of the
second byte) set the value is minus the low 15 bits, else it is the plain value. -/
def Obligations.SignedDecodersAreSignMagnitude : Prop :=
  ∀ (params : List Byte) (s : State),
    ∀ i ∈ [Instr.vdS16 params, .vdSpeed params, .vdCurrent params, .vdLoad params],
      (∀ lo hi, params = [lo, hi] →
        exec i s = .next { s with outputs := s.outputs ++
          [.value (if 128 ≤ hi.toNat then -((lo.toNat : Int) + 256 * ((hi.toNat : Int) - 128))
                   else (lo.toNat : Int) + 256 * (hi.toNat : Int))] }) ∧
      (params.length ≠ 2 →
        exec i s = .next { s with outputs := s.outputs ++ [.error (.lengthMismatch 2 params.length)] })

/-- R215, R210: VD.VOLTAGE gives the exact tenth of the byte, in volts (the exact rational is the spec's decision D17). -/
def Obligations.VoltageIsTheExactTenth : Prop :=
  ∀ (params : List Byte) (s : State),
    (∀ b, params = [b] → ∃ q : Rat, q * 10 = (b.toNat : Rat) ∧
      exec (.vdVoltage params) s = .next { s with outputs := s.outputs ++ [.volts q] }) ∧
    (params.length ≠ 1 →
      exec (.vdVoltage params) s = .next { s with outputs := s.outputs ++ [.error (.lengthMismatch 1 params.length)] })

/-- R214: laws of the sign-magnitude reading: range, oddness, agreement with the plain value below 0x8000, and difference
from two's complement on every value from 0x8000 on except at 0xC000, where by R213 both are -16384 and R214's sentence
overlooks it (log 31, DEDUCED). -/
def Obligations.SignMagnitudeLaws : Prop :=
  ∀ raw : BitVec 16,
    -32767 ≤ smag16 raw ∧ smag16 raw ≤ 32767 ∧ smag16 (raw ^^^ 0x8000) = -smag16 raw ∧
    (raw.toNat < 0x8000 → smag16 raw = raw.toInt ∧ smag16 raw = (raw.toNat : Int)) ∧
    (0x8000 ≤ raw.toNat → raw ≠ 0xC000 → smag16 raw ≠ raw.toInt)

/-! ## Whole-machine rules -/

/-- R30, R20, R240: every operation of the pure units completes in every state with an output that depends on its
operands alone, and leaves the deserializer and everything else as it was, reported errors included. -/
def Obligations.PureUnitsDependOnOperandsAlone : Prop :=
  ∀ i : Instr, i.isPure = true → ∃ o : Output, o.emitted = [] ∧
    ∀ s : State, exec i s = .next { s with outputs := s.outputs ++ [o] }

/-- R230, R231, R233: the only operations that report an error are SER (kinds 1 to 5), CB.MOVE (kind 6) and the VD
operations (kind 7, for the wrong number of parameters); the deserializer never does (R234). The kinds are told apart by
their codes (the numbers are the spec's decision D11). -/
def Obligations.OnlyTheseOperationsReportErrors : Prop :=
  (∀ (i : Instr) (s t : State) (e : ErrKind), exec i s = .next t → t.outputs = s.outputs ++ [.error e] →
    (∃ p, i = .ser p ∧ 1 ≤ e.code.toNat ∧ e.code.toNat ≤ 5) ∨
    (∃ id pos speed acc, i = .cbMove id pos speed acc ∧ e = .positionRange pos ∧ e.code = 6) ∨
    (∃ ps w, e = .lengthMismatch w ps.length ∧ ps.length ≠ w ∧ e.code = 7 ∧
      (w = 1 ∧ i ∈ [Instr.vdU8 ps, .vdVoltage ps, .vdTemperature ps] ∨
       w = 2 ∧ i ∈ [Instr.vdU16 ps, .vdS16 ps, .vdPosition ps, .vdSpeed ps, .vdCurrent ps, .vdLoad ps]))) ∧
  ∀ (v w : Int) (n m k l : Nat),
    [(ErrKind.servoId v).code, (ErrKind.instruction w).code, (ErrKind.paramCount n).code, (ErrKind.paramValue m).code,
      (ErrKind.frameLength k).code, (ErrKind.positionRange v).code, (ErrKind.lengthMismatch k l).code] =
      [1, 2, 3, 4, 5, 6, 7]

/-! ## The port binding (the spec's decisions D2, D6, D12, D30) -/

/-- R35, R163, R164, R166: at the serializer's ports the only failures are id 255 (code 1) and more than 60 parameters (code 3);
on success `s_err = 0`, `s_nbytes = s_nparams + 6` and every byte of the frame stands at its index, header to checksum; on
an error `s_nbytes = 0`; all whatever the ports that are not valid carry. That id 255 with more than 60 parameters shows code 1 rests on the order of the checks, the spec's decision D10
(log 19). -/
def Obligations.SerializerPortsShowTheResult : Prop :=
  ∀ (i : SerPortsIn) (free : Nat → Byte) (s : State) (rest : List Request), s.pending = i.request :: rest →
    ∃ (o : Output) (out : SerPortsOut),
      step s = .next { s with pending := rest, outputs := s.outputs ++ [o] } ∧ serPortsOf free o = some out ∧
      (i.sId = 255 → out.sOk = false ∧ out.sErr = 1 ∧ out.sNbytes = 0) ∧
      (i.sId ≠ 255 → 60 < i.sNparams.toNat → out.sOk = false ∧ out.sErr = 3 ∧ out.sNbytes = 0) ∧
      (i.sId ≠ 255 → i.sNparams.toNat ≤ 60 →
        out.sOk = true ∧ out.sErr = 0 ∧ out.sNbytes.toNat = i.sNparams.toNat + 6 ∧
        out.sBytes[0] = 0xFF ∧ out.sBytes[1] = 0xFF ∧ out.sBytes[2] = i.sId ∧
        out.sBytes[3].toNat = i.sNparams.toNat + 2 ∧ out.sBytes[4] = i.sInstr ∧
        (∀ (k : Fin 60), k.val < i.sNparams.toNat → out.sBytes[k.val + 5] = i.sParams[k.val]) ∧
        out.sBytes[i.sNparams.toNat + 5]? = some (checksum
          (i.sId :: BitVec.ofNat 8 (i.sNparams.toNat + 2) :: i.sInstr :: i.sParams.toList.take i.sNparams.toNat)))

/-- R34: `pkt_valid` is 1 exactly when the cycle's step emitted a packet, and then the packet ports carry it. -/
def Obligations.PacketPortsShowTheEmittedPacket : Prop :=
  ∀ (b : Byte) (free : Nat → Byte) (s : State) (rest : List Request), s.rx.wf = true →
    s.pending = byteCycle b :: rest →
    ∃ (d : Deser) (o : Output), step s = .next { rx := d, pending := rest, outputs := s.outputs ++ [o] } ∧
      ((rxPortsOf free o).pktValid = true ↔ o.emitted ≠ []) ∧
      ∀ p, o = .emit p →
        ((rxPortsOf free o).pktId.toNat : Int) = p.servoId ∧ ((rxPortsOf free o).pktInstr.toNat : Int) = p.instruction ∧
        (rxPortsOf free o).pktNparams.toNat = p.params.length ∧
        ∀ (k : Fin 62), k.val < p.params.length →
          p.params[k.val]? = some (((rxPortsOf free o).pktParams[k.val].toNat : Int))

/-- R37, R210: at the decoder's ports the carrier gives the integer result back, `vd_div10` is 1 exactly for a successful
VD.VOLTAGE, and the only failure is a wrong number of parameters (code 7). -/
def Obligations.DecoderPortsCarryTheValue : Prop :=
  ∀ (i : VdPortsIn) (free : Nat → Byte) (s : State) (rest : List Request), s.pending = i.request :: rest →
    i.vdOp.toNat ≤ 8 →
    ∃ (o : Output) (out : VdPortsOut),
      step s = .next { s with pending := rest, outputs := s.outputs ++ [o] } ∧ vdPortsOf free o = some out ∧
      (out.vdOk = true ↔
        i.vdNparams.toNat = if i.vdOp.toNat = 0 ∨ i.vdOp.toNat = 3 ∨ i.vdOp.toNat = 5 then 1 else 2) ∧
      (out.vdOk = true → out.vdErr = 0 ∧ (out.vdDiv10 = true ↔ i.vdOp.toNat = 3)) ∧
      (out.vdOk = false → out.vdErr = 7) ∧
      (∀ v, o = .value v → out.vdValue.toInt = v) ∧
      (∀ q, o = .volts q → out.vdValue.toInt = (i.vdP0.toNat : Int))

/-- R36, R185: at the builder's ports the only failure is CB.MOVE with a position above 4095 (code 6); otherwise
`cb_pkt_id` is `cb_id`, and for a `cb_ndata` of 0..59 where the operation has data `cb_pkt_nparams` is the number of
parameters and the parameters stand on their ports. `cb_ndata` and the data are ignored by the operations without data.
An element that `cb_ndata = 60..63` asks for beyond the data ports is any value (`absent`; log 21). -/
def Obligations.BuilderPortsShowThePacket : Prop :=
  ∀ (i : CbPortsIn) (absent free : Nat → Byte) (s : State) (rest : List Request),
    s.pending = i.request absent :: rest → i.cbOp.toNat ≤ 12 →
    (i.cbOp.toNat ≠ 1 → i.cbOp.toNat ≠ 11 → ∀ (n : BitVec 6) (data : Vector Byte 59) (absent' : Nat → Byte),
      decode (({ i with cbNdata := n, cbData := data } : CbPortsIn).request absent') = decode (i.request absent)) ∧
    ∃ (o : Output) (out : CbPortsOut),
      step s = .next { s with pending := rest, outputs := s.outputs ++ [o] } ∧ cbPortsOf free o = some out ∧
      (i.cbOp.toNat = 2 ∧ 4095 < i.cbPosition.toNat → out.cbOk = false ∧ out.cbErr = 6) ∧
      (¬(i.cbOp.toNat = 2 ∧ 4095 < i.cbPosition.toNat) →
        out.cbOk = true ∧ out.cbErr = 0 ∧ out.cbPktId = i.cbId ∧
        ∃ p, o = .packet p ∧ (out.cbPktInstr.toNat : Int) = p.instruction ∧
          (i.cbOp.toNat = 1 ∨ i.cbOp.toNat = 11 → p.params.length = i.cbNdata.toNat + 1) ∧
          ((i.cbOp.toNat = 1 ∨ i.cbOp.toNat = 11 → i.cbNdata.toNat ≤ 59) →
            out.cbPktNparams.toNat = p.params.length ∧
            ∀ (k : Fin 60), k.val < p.params.length →
              p.params[k.val]? = some ((out.cbPktParams[k.val].toNat : Int))))

/-! ## Which rows a frame selects -/

/-- R102: a well-formed frame on the wire selects the row of its instruction code, READ only when byte 3 is 4 and WRITE
only when byte 3 is `len(data) + 3` with the address present; a frame that selects no row is received as its bytes
(logs 7, 8). -/
def Obligations.FramesSelectTheirTableRow : Prop :=
  ∀ (f : Frame) (code : Byte), f.wf = true →
    (code = 1 → decode (.wire (f.bytes code)) = .ok (.ping f)) ∧
    (code = 4 → decode (.wire (f.bytes code)) = .ok (.regwrite f)) ∧
    (code = 5 → decode (.wire (f.bytes code)) = .ok (.action f)) ∧
    (decode (.wire (f.bytes code)) = .ok (.read f) ↔ code = 2 ∧ f.length.toNat = 4) ∧
    (decode (.wire (f.bytes code)) = .ok (.write f) ↔ code = 3 ∧ 3 ≤ f.length.toNat ∧ f.length.toNat ≤ 64) ∧
    ((code = 0 ∨ 5 < code.toNat ∨ (code = 2 ∧ f.length.toNat ≠ 4) ∨
        (code = 3 ∧ (f.length.toNat < 3 ∨ 64 < f.length.toNat))) →
      decode (.wire (f.bytes code)) = .ok (.rxFeed (f.bytes code)))
end

