-- ==== Sys2Proof/Laws/State.lean ====
section
/-! SUPPORT. One lemma per field per update of State and of the deserializer, so that no proof unfolds an update. -/

namespace Sys2Proof.Machine

@[simp] theorem State.record_rx (o : Output) (s : State) : (s.record o).rx = s.rx := rfl
@[simp] theorem State.record_pending (o : Output) (s : State) : (s.record o).pending = s.pending := rfl
@[simp] theorem State.record_outputs (o : Output) (s : State) : (s.record o).outputs = s.outputs ++ [o] := rfl

@[simp] theorem State.withRx_rx (d : Deser) (s : State) : (s.withRx d).rx = d := rfl
@[simp] theorem State.withRx_pending (d : Deser) (s : State) : (s.withRx d).pending = s.pending := rfl
@[simp] theorem State.withRx_outputs (d : Deser) (s : State) : (s.withRx d).outputs = s.outputs := rfl

@[simp] theorem State.reportError_eq (e : ErrKind) (s : State) : s.reportError e = s.record (.error e) := rfl
@[simp] theorem State.complete_ok (o : Output) (s : State) : s.complete (.ok o) = s.record o := rfl
@[simp] theorem State.complete_error (e : ErrKind) (s : State) : s.complete (.error e) = s.record (.error e) := rfl

@[simp] theorem Output.ofResult_ok (o : Output) : Output.ofResult (.ok o) = o := rfl
@[simp] theorem Output.ofResult_error (e : ErrKind) : Output.ofResult (.error e) = .error e := rfl

/-- A pure operation always ends in one recorded output, its result or its error (R232, R240). -/
theorem State.complete_eq_record (r : Except ErrKind Output) (s : State) :
    s.complete r = s.record (.ofResult r) := by
  cases r <;> rfl

@[simp] theorem Deser.abort_eq (d : Deser) : d.abort = Deser.reset := rfl
@[simp] theorem Deser.reset_st : Deser.reset.st = .waitHeader1 := rfl
@[simp] theorem Deser.reset_buf : Deser.reset.buf = [] := rfl
@[simp] theorem Deser.reset_rem : Deser.reset.rem = 0 := rfl
theorem Deser.reset_wf : Deser.reset.wf = true := rfl

@[simp] theorem State.emitted_record (o : Output) (s : State) :
    (s.record o).emitted = s.emitted ++ o.emitted := by
  simp [State.emitted]

@[simp] theorem State.emitted_withRx (d : Deser) (s : State) : (s.withRx d).emitted = s.emitted := rfl

theorem Output.emitted_ofStep (o : Option Packet) : (Output.ofStep o).emitted = o.toList := by
  cases o <;> rfl

end Sys2Proof.Machine
end

