-- ==== Sys2Proof/Laws/Ops.lean ====
section
/-! SUPPORT. The shared operations of Machine/Ops.lean and Machine/Operands.lean: the checksum as arithmetic, the shapes
of R25, bytes of integers. -/

namespace Sys2Proof.Machine

@[simp] theorem byteSum_nil : byteSum [] = 0 := rfl
@[simp] theorem byteSum_cons (b : Byte) (bs : List Byte) : byteSum (b :: bs) = b.toNat + byteSum bs := rfl

/-- The exact sum is the library's sum of the values (R11). -/
theorem byteSum_eq_sum (s : List Byte) : byteSum s = (s.map BitVec.toNat).sum := by
  induction s with
  | nil => rfl
  | cons b bs ih => simp [ih]

@[simp] theorem byteSum_append (s t : List Byte) : byteSum (s ++ t) = byteSum s + byteSum t := by
  induction s with
  | nil => simp
  | cons b bs ih => simp [ih, Nat.add_assoc]

/-- The checksum as arithmetic (R121): `255 - (sum mod 256)`. -/
theorem checksum_toNat (s : List Byte) : (checksum s).toNat = 255 - byteSum s % 256 := by
  unfold checksum
  rw [BitVec.toNat_ofInt]
  omega

/-- CHK.VERIFY compares the computed byte (R123). -/
theorem verifies_iff (covered : List Byte) (c : Byte) : verifies covered c = true ↔ c = checksum covered := by
  rw [verifies, beq_iff_eq, eq_comm]

/-- The length byte's legal range (R135). -/
theorem legalLength_iff (l : Byte) : legalLength l = true ↔ 2 ≤ l.toNat ∧ l.toNat ≤ 64 := by
  simp only [legalLength, Bool.and_eq_true, decide_eq_true_eq]

theorem legalLength_false_iff (l : Byte) : legalLength l = false ↔ l.toNat < 2 ∨ 64 < l.toNat := by
  rw [← Bool.not_eq_true, legalLength_iff]; omega

/-- What `bufShape` says (R25). -/
theorem bufShape_iff (buf : List Byte) (n : Nat) :
    bufShape buf n = true ↔ ∃ id len payload, buf = id :: len :: payload ∧
      2 ≤ len.toNat ∧ len.toNat ≤ 64 ∧ payload.length + n + 1 = len.toNat := by
  constructor
  · intro h
    match buf, h with
    | id :: len :: payload, h =>
      simp only [bufShape, Bool.and_eq_true, legalLength_iff, beq_iff_eq] at h
      exact ⟨id, len, payload, rfl, h.1.1, h.1.2, h.2⟩
  · rintro ⟨id, len, payload, rfl, h1, h2, h3⟩
    simp [bufShape, legalLength_iff, h1, h2, h3]

/-- R25, one clause per parse state. -/
theorem Deser.wf_iff (d : Deser) : d.wf = true ↔
    match d.st with
    | .waitHeader1 => d.buf = [] ∧ d.rem.val = 0
    | .waitHeader2 => d.buf = [] ∧ d.rem.val = 0
    | .waitId => d.buf = [] ∧ d.rem.val = 0
    | .waitLength => d.buf.length = 1 ∧ d.rem.val = 0
    | .waitPayload => bufShape d.buf d.rem.val = true ∧ 1 ≤ d.rem.val
    | .waitChecksum => bufShape d.buf d.rem.val = true ∧ d.rem.val = 0 := by
  rcases d with ⟨st, buf, rem⟩
  cases st <;> simp [Deser.wf]

/-- In `WaitHeader1` the only value of R25 is the reset state (R33, R261). -/
theorem Deser.eq_reset_of_wf {d : Deser} (h : d.wf = true) (hst : d.st = .waitHeader1) : d = Deser.reset := by
  rcases d with ⟨st, buf, rem⟩
  obtain rfl : st = .waitHeader1 := hst
  simp only [Deser.wf_iff] at h
  obtain ⟨rfl, h2⟩ := h
  obtain rfl : rem = 0 := Fin.ext h2
  rfl

theorem isByte_iff (v : Int) : isByte v = true ↔ 0 ≤ v ∧ v ≤ 255 := by
  simp [isByte]

@[simp] theorem byteInt_toByte_of_isByte {v : Int} (h : isByte v = true) : byteInt (toByte v) = v := by
  simp only [isByte, Bool.and_eq_true, decide_eq_true_eq] at h
  simp only [byteInt, toByte, BitVec.toNat_ofInt]
  omega

@[simp] theorem toByte_byteInt (b : Byte) : toByte (byteInt b) = b := by
  simp [toByte, byteInt]

theorem isByte_byteInt (b : Byte) : isByte (byteInt b) = true := by
  have := b.isLt
  rw [isByte_iff, byteInt]
  omega

/-- The little-endian combination as arithmetic (R94, R212). -/
theorem combine16_toNat (p0 p1 : Byte) : (combine16 p0 p1).toNat = p0.toNat + 256 * p1.toNat := by
  have h0 := p0.isLt
  have h1 := p1.isLt
  have hd : (p1.setWidth 16 <<< 8) &&& p0.setWidth 16 = 0#16 := by
    ext i hi
    simp
    intro h _
    rcases Nat.lt_or_ge i 8 with h8 | h8
    · omega
    · exact BitVec.getLsbD_of_ge p0 i h8
  rw [combine16, BitVec.or_comm, ← BitVec.add_eq_or_of_and_eq_zero _ _ hd]
  simp [BitVec.toNat_add, Nat.shiftLeft_eq]
  omega

/-- The sign-magnitude reading as arithmetic (R213). -/
theorem smag16_eq (raw : BitVec 16) :
    smag16 raw = if 32768 ≤ raw.toNat then -((raw.toNat : Int) - 32768) else (raw.toNat : Int) := by
  have h := raw.isLt
  have hm : (raw &&& Config.magMask).toNat = raw.toNat % 32768 := by
    rw [BitVec.toNat_and]
    exact Nat.and_two_pow_sub_one_eq_mod raw.toNat 15
  have hb : raw.getLsbD 15 = decide (32768 ≤ raw.toNat) := by
    rw [← BitVec.msb_eq_getLsbD_last, BitVec.msb_eq_decide]
  unfold smag16 Config.signBit
  rw [hb, hm]
  simp only [decide_eq_true_eq]
  split <;> omega

end Sys2Proof.Machine
end

