-- ==== Sys2Proof/Laws/Deserializer.lean ====
section
/-! SUPPORT. What a deserializer step and a feed can do (41_deserializer.md R138), and what they keep (10_state.md R25). -/

namespace Sys2Proof.Machine

/-- `packet_of` on a buffer that holds id, length byte and instruction code (R142). -/
@[simp] theorem packetOf_cons3 (id len code : Byte) (params : List Byte) :
    packetOf (id :: len :: code :: params) =
      some { servoId := byteInt id, instruction := byteInt code, params := params.map byteInt } := rfl

/-- In `WaitChecksum` within R25 the buffer is id, length byte, instruction code and `L - 2` parameters. -/
theorem Deser.waitChecksum_shape {d : Deser} (h : d.wf = true) (hst : d.st = .waitChecksum) :
    ∃ id len code params, d = { st := .waitChecksum, buf := id :: len :: code :: params, rem := 0 } ∧
      2 ≤ len.toNat ∧ len.toNat ≤ 64 ∧ params.length + 2 = len.toNat := by
  rcases d with ⟨st, buf, rem⟩
  obtain rfl : st = .waitChecksum := hst
  simp only [Deser.wf_iff, bufShape_iff] at h
  obtain ⟨⟨id, len, payload, rfl, h1, h2, h3⟩, h4⟩ := h
  obtain rfl : rem = 0 := Fin.ext h4
  match payload, h3 with
  | [], h3 => simp at h3; omega
  | code :: params, h3 =>
    simp at h3
    exact ⟨id, len, code, params, rfl, h1, h2, by omega⟩

/-- The inversion of RX.BYTE: the transition table R138, one alternative per row. -/
theorem rxStep_cases {b : Byte} {d d' : Deser} {o : Option Packet} (h : rxStep b d = some (d', o)) :
    (d.st = .waitHeader1 ∧ b = 0xFF ∧ d' = { d with st := .waitHeader2 } ∧ o = none) ∨
    (d.st = .waitHeader1 ∧ b ≠ 0xFF ∧ d' = d ∧ o = none) ∨
    (d.st = .waitHeader2 ∧ b = 0xFF ∧ d' = { d with st := .waitId } ∧ o = none) ∨
    (d.st = .waitHeader2 ∧ b ≠ 0xFF ∧ d' = Deser.reset ∧ o = none) ∨
    (d.st = .waitId ∧ d' = { d with st := .waitLength, buf := [b] } ∧ o = none) ∨
    (d.st = .waitLength ∧ 2 ≤ b.toNat ∧ b.toNat ≤ 64 ∧ d'.st = .waitPayload ∧ d'.buf = d.buf ++ [b] ∧
      d'.rem.val = b.toNat - 1 ∧ o = none) ∨
    (d.st = .waitLength ∧ legalLength b = false ∧ d' = Deser.reset ∧ o = none) ∨
    (d.st = .waitPayload ∧ 1 ≤ d.rem.val ∧ d'.st = (if d'.rem.val = 0 then .waitChecksum else .waitPayload) ∧
      d'.buf = d.buf ++ [b] ∧ d'.rem.val + 1 = d.rem.val ∧ o = none) ∨
    (d.st = .waitPayload ∧ d.rem.val = 0 ∧ d' = Deser.reset ∧ o = none) ∨
    (d.st = .waitChecksum ∧ d.wf = true ∧ b = checksum d.buf ∧ d' = Deser.reset ∧
      ∃ p, packetOf d.buf = some p ∧ o = some p) ∨
    (d.st = .waitChecksum ∧ d.wf = true ∧ b ≠ checksum d.buf ∧ d' = Deser.reset ∧ o = none) := by
  rcases d with ⟨st, buf, rem⟩
  cases st with
  | waitHeader1 =>
    simp only [rxStep, rxWaitHeader1, Config.header1, Option.some.injEq] at h
    split at h <;> cases h <;> simp_all
  | waitHeader2 =>
    simp only [rxStep, rxWaitHeader2, Config.header2, Option.some.injEq] at h
    split at h <;> cases h <;> simp_all
  | waitId =>
    simp only [rxStep, rxWaitId, Option.some.injEq] at h
    cases h; simp
  | waitLength =>
    simp only [rxStep, rxWaitLength, Option.some.injEq] at h
    split at h
    · rename_i hl
      cases h
      have hb := (legalLength_iff b).1 hl
      have : b.toNat - 1 < 64 := by omega
      simp [Nat.mod_eq_of_lt this, hb]
    · cases h; simp_all
  | waitPayload =>
    have hr := rem.isLt
    simp only [rxStep, rxWaitPayload, Option.some.injEq] at h
    split at h
    · cases h; simp_all
    · rename_i hl
      cases h
      have : rem.val - 1 < 64 := by omega
      simp only [reduceCtorEq, false_and, false_or, true_and, Fin.val_ofNat, Nat.mod_eq_of_lt this, and_true]
      exact .inl ⟨by omega, by omega⟩
  | waitChecksum =>
    simp only [rxStep, rxWaitChecksum] at h
    split at h
    · rename_i hw
      split at h
      · rename_i hv
        simp only [Option.map_eq_some_iff] at h
        obtain ⟨p, hp, he⟩ := h
        cases he
        simp [hw, (verifies_iff _ _).1 hv, hp]
      · rename_i hv
        cases h
        have : b ≠ checksum buf := fun hb => hv ((verifies_iff _ _).2 hb)
        simp [hw, this]
    · cases h

/-- RX.BYTE gives a result in every state but `WaitChecksum` outside R25 (R130, R137). -/
theorem rxStep_eq_none_iff (b : Byte) (d : Deser) :
    rxStep b d = none ↔ d.st = .waitChecksum ∧ d.wf = false := by
  rcases d with ⟨st, buf, rem⟩
  cases st <;> simp only [rxStep, reduceCtorEq, false_and, true_and]
  cases hw : Deser.wf ⟨.waitChecksum, buf, rem⟩
  · simp [rxWaitChecksum, hw]
  · obtain ⟨id, len, code, params, he, -⟩ := Deser.waitChecksum_shape hw rfl
    cases he
    simp only [rxWaitChecksum, hw, if_true, packetOf_cons3, Option.map_some]
    split <;> simp

theorem Packet.receivable_iff (p : Packet) : p.receivable = true ↔
    isByte p.servoId = true ∧ isByte p.instruction = true ∧ p.params.length ≤ 62 ∧
      p.params.all isByte = true := by
  simp only [Packet.receivable, Bool.and_eq_true, decide_eq_true_eq, Config.rxParamsMax, Config.lenMax, and_assoc]

/-- RX.BYTE keeps R25, and emits receivable packets (R143). -/
theorem rxStep_keeps_wf {b : Byte} {d d' : Deser} {o : Option Packet} (hw : d.wf = true)
    (h : rxStep b d = some (d', o)) : d'.wf = true ∧ ∀ p, o = some p → p.receivable = true := by
  rcases d with ⟨st, buf, rem⟩
  rcases d' with ⟨st', buf', rem'⟩
  rcases rxStep_cases h with
      ⟨rfl, -, he, rfl⟩ | ⟨rfl, -, he, rfl⟩ | ⟨rfl, -, he, rfl⟩ | ⟨rfl, -, he, rfl⟩ | ⟨rfl, he, rfl⟩ |
      ⟨rfl, h1, h2, rfl, hb, hr, rfl⟩ | ⟨rfl, -, he, rfl⟩ | ⟨rfl, h1, hst, hb, hr, rfl⟩ | ⟨rfl, -, he, rfl⟩ |
      ⟨hst, -, -, he, p, hp, rfl⟩ | ⟨-, -, -, he, rfl⟩
  · cases he; simpa [Deser.wf] using hw
  · cases he; simpa using hw
  · cases he; simpa [Deser.wf] using hw
  · rw [he]; simp [Deser.reset_wf]
  · cases he
    simp only [Deser.wf_iff] at hw ⊢
    simp [hw.2]
  · simp only [Deser.wf_iff] at hw
    obtain ⟨hl, -⟩ := hw
    obtain ⟨id, rfl⟩ := List.length_eq_one_iff.1 hl
    simp only at hb hr
    subst hb
    refine ⟨?_, by simp⟩
    simp only [Deser.wf_iff, bufShape_iff]
    exact ⟨⟨id, b, [], rfl, h1, h2, by simp; omega⟩, by omega⟩
  · rw [he]; simp [Deser.reset_wf]
  · simp only [Deser.wf_iff, bufShape_iff] at hw
    obtain ⟨⟨id, len, payload, rfl, hl1, hl2, hl3⟩, -⟩ := hw
    simp only at hb hr hst
    subst hb
    refine ⟨?_, by simp⟩
    simp only [Deser.wf_iff, hst]
    have hs : bufShape (id :: len :: payload ++ [b]) rem'.val = true :=
      (bufShape_iff _ _).2 ⟨id, len, payload ++ [b], rfl, hl1, hl2, by simp; omega⟩
    split
    all_goals (rename_i hif; split at hif <;> simp at hif)
    · exact ⟨hs, by omega⟩
    · exact ⟨hs, by omega⟩
  · rw [he]; simp [Deser.reset_wf]
  · rw [he]
    refine ⟨Deser.reset_wf, ?_⟩
    rintro q ⟨⟩
    obtain ⟨id, len, code, params, hd, -, h2, h3⟩ := Deser.waitChecksum_shape hw hst
    cases hd
    cases hp
    rw [Packet.receivable_iff]
    simp only [isByte_byteInt, List.length_map, List.all_map, List.all_eq_true, Function.comp, true_and]
    exact ⟨by omega, fun _ _ => trivial⟩
  · rw [he]; simp [Deser.reset_wf]

/-- Within R25 a step has a result (R130). -/
theorem rxStep_some_of_wf (b : Byte) {d : Deser} (hw : d.wf = true) : ∃ d' o, rxStep b d = some (d', o) := by
  rcases h : rxStep b d with _ | ⟨d', o⟩
  · rw [rxStep_eq_none_iff] at h
    simp [hw] at h
  · exact ⟨d', o, rfl⟩

/-- An empty chunk is no step (R141). -/
@[simp] theorem rxFeed_nil (d : Deser) : rxFeed [] d = some (d, []) := rfl

/-- The first byte of a chunk is one step, the rest a chunk from there (R141). -/
theorem rxFeed_cons_of_step {b : Byte} {bs : List Byte} {d d' : Deser} {o : Option Packet}
    (h : rxStep b d = some (d', o)) :
    rxFeed (b :: bs) d = (rxFeed bs d').map fun r => (r.1, o.toList ++ r.2) := by
  rw [rxFeed, h]
  simp only
  cases rxFeed bs d' <;> rfl

/-- A feed that succeeds on a non-empty chunk is its first step and the feed of the rest. -/
theorem rxFeed_cons_inv {b : Byte} {bs : List Byte} {d e : Deser} {ps : List Packet}
    (h : rxFeed (b :: bs) d = some (e, ps)) :
    ∃ d' o qs, rxStep b d = some (d', o) ∧ rxFeed bs d' = some (e, qs) ∧ ps = o.toList ++ qs := by
  rcases hs : rxStep b d with _ | ⟨d', o⟩
  · simp [rxFeed, hs] at h
  · rw [rxFeed_cons_of_step hs] at h
    simp only [Option.map_eq_some_iff] at h
    obtain ⟨⟨e', qs⟩, h1, h2⟩ := h
    cases h2
    exact ⟨d', o, qs, rfl, h1, rfl⟩

/-- A feed of two pieces joined is the feed of the first and then of the second (R141: a left fold). -/
theorem rxFeed_append_of {xs ys : List Byte} {d e : Deser} {ps : List Packet} (h : rxFeed xs d = some (e, ps)) :
    rxFeed (xs ++ ys) d = (rxFeed ys e).map fun r => (r.1, ps ++ r.2) := by
  induction xs generalizing d ps with
  | nil => cases h; simp
  | cons b bs ih =>
    obtain ⟨d', o, qs, h1, h2, rfl⟩ := rxFeed_cons_inv h
    rw [List.cons_append, rxFeed_cons_of_step h1, ih h2, Option.map_map]
    congr 1
    funext r
    simp

/-- Within R25 a feed has a result, keeps R25, and returns receivable packets. -/
theorem rxFeed_some_of_wf (bs : List Byte) {d : Deser} (hw : d.wf = true) :
    ∃ e ps, rxFeed bs d = some (e, ps) ∧ e.wf = true ∧ ∀ p ∈ ps, p.receivable = true := by
  induction bs generalizing d with
  | nil => exact ⟨d, [], rfl, hw, by simp⟩
  | cons b bs ih =>
    obtain ⟨d', o, hs⟩ := rxStep_some_of_wf b hw
    obtain ⟨hw', ho⟩ := rxStep_keeps_wf hw hs
    obtain ⟨e, ps, hf, he, hp⟩ := ih hw'
    refine ⟨e, o.toList ++ ps, ?_, he, ?_⟩
    · rw [rxFeed_cons_of_step hs, hf]; rfl
    · intro p hpm
      rcases List.mem_append.1 hpm with h | h
      · exact ho p (by simpa using h)
      · exact hp p h

/-- What RX.BYTE does when it gives a next state. -/
theorem execRxByte_next {b : Byte} {s t : State} (h : execRxByte b s = .next t) :
    ∃ d o, rxStep b s.rx = some (d, o) ∧ t = (s.withRx d).record (.ofStep o) := by
  unfold execRxByte at h
  split at h
  · rename_i d o hs
    cases h
    exact ⟨d, o, hs, rfl⟩
  · cases h

/-- What a reception does when it gives a next state. -/
theorem receive_next {bs : List Byte} {s t : State} (h : receive bs s = .next t) :
    ∃ d ps, rxFeed bs s.rx = some (d, ps) ∧ t = (s.withRx d).record (.fed ps) := by
  unfold receive at h
  split at h
  · rename_i d ps hs
    cases h
    exact ⟨d, ps, hs, rfl⟩
  · cases h

/-- A reception whose feed has a result gives the next state with it. -/
theorem receive_of_feed {bs : List Byte} {s : State} {d : Deser} {ps : List Packet}
    (h : rxFeed bs s.rx = some (d, ps)) : receive bs s = .next ((s.withRx d).record (.fed ps)) := by
  simp [receive, h]

end Sys2Proof.Machine
end

