-- ==== Sys2Proof/Laws/Units.lean ====
section
/-! SUPPORT. What the pure units output (42_serializer.md, 43_command_encoder.md, 44_value_decoder.md). -/

namespace Sys2Proof.Machine

theorem Packet.valid_iff (p : Packet) : p.valid = true ↔
    0 ≤ p.servoId ∧ p.servoId ≤ 254 ∧ isByte p.instruction = true ∧ p.params.length ≤ 60 ∧
      p.params.all isByte = true := by
  simp only [Packet.valid, Bool.and_eq_true, decide_eq_true_eq, Config.txIdMax, Config.txParamsMax, and_assoc,
    Nat.cast_ofNat]

/-- No parameter fails check 4 exactly when all are bytes (R161). -/
theorem badParam?_eq_none_iff (ps : List Int) : badParam? ps = none ↔ ps.all isByte = true := by
  simp [badParam?]

/-- The checks pass exactly for the valid packets (R84, R161). -/
theorem validate_eq_ok_iff (p : Packet) : validate p = .ok () ↔ p.valid = true := by
  rw [Packet.valid_iff]
  unfold validate
  split
  · rename_i h
    simp only [reduceCtorEq, false_iff]
    rintro ⟨h1, h2, -⟩
    simp only [Config.txIdMax, Nat.cast_ofNat] at h
    omega
  · rename_i h
    simp only [Config.txIdMax, Nat.cast_ofNat, not_or, Int.not_lt] at h
    split
    · rename_i hi
      simp [hi]
    · rename_i hi
      simp only [Bool.not_eq_false] at hi
      split
      · rename_i hc
        simp only [reduceCtorEq, false_iff]
        rintro ⟨-, -, -, h4, -⟩
        simp only [Config.txParamsMax] at hc
        omega
      · rename_i hc
        simp only [Config.txParamsMax, Nat.not_lt] at hc
        split
        · rename_i i hb
          simp only [reduceCtorEq, false_iff]
          rintro ⟨-, -, -, -, h5⟩
          rw [(badParam?_eq_none_iff _).2 h5] at hb
          cases hb
        · rename_i hb
          have := (badParam?_eq_none_iff _).1 hb
          rw [if_neg (by simp only [frameLen, Config.lenMin, Config.lenMax]; omega)]
          simp [h, hi, hc, this]

/-- What SER's checks can report: one of the first four kinds (R161, R165). -/
theorem validate_error_cases {p : Packet} {e : ErrKind} (h : validate p = .error e) :
    e = .servoId p.servoId ∨ e = .instruction p.instruction ∨ e = .paramCount p.params.length ∨
      ∃ i, badParam? p.params = some i ∧ e = .paramValue i := by
  unfold validate at h
  split at h
  · cases h; exact .inl rfl
  · split at h
    · cases h; exact .inr (.inl rfl)
    · split at h
      · cases h; exact .inr (.inr (.inl rfl))
      · rename_i hc
        simp only [Config.txParamsMax, Nat.not_lt] at hc
        split at h
        · rename_i i hb
          cases h; exact .inr (.inr (.inr ⟨i, hb, rfl⟩))
        · rw [if_neg (by simp only [frameLen, Config.lenMin, Config.lenMax]; omega)] at h
          cases h

/-- SER as a function: a frame for a valid packet (R163). -/
theorem serialize_of_valid {p : Packet} (h : p.valid = true) : serialize p = .ok (encodeFrame p) := by
  simp [serialize, (validate_eq_ok_iff p).2 h]

/-- SER as a function: what a success and what an error is (R160). -/
theorem serialize_ok_iff (p : Packet) (bytes : List Byte) :
    serialize p = .ok bytes ↔ p.valid = true ∧ bytes = encodeFrame p := by
  unfold serialize
  split
  · rename_i h
    simp [(validate_eq_ok_iff p).1 h, eq_comm]
  · rename_i e h
    have : p.valid ≠ true := fun hv => by rw [(validate_eq_ok_iff p).2 hv] at h; cases h
    simp [this]

theorem serialize_error_iff (p : Packet) (e : ErrKind) : serialize p = .error e ↔ validate p = .error e := by
  unfold serialize
  split
  · rename_i h; simp [h]
  · rename_i e' h; simp [h]

/-- The output of SER. -/
theorem execSer_eq (p : Packet) (s : State) :
    execSer p s = .next (s.record (.ofResult ((serialize p).map .frame))) := by
  rw [execSer, State.complete_eq_record]

/-- The parameters of a valid packet come back from their bytes. -/
theorem map_byteInt_toByte {ps : List Int} (h : ps.all isByte = true) : (ps.map toByte).map byteInt = ps := by
  induction ps with
  | nil => rfl
  | cons v vs ih =>
    simp only [List.all_cons, Bool.and_eq_true] at h
    simp only [List.map_cons, byteInt_toByte_of_isByte h.1, ih h.2]

@[simp] theorem length_coveredOf (p : Packet) : (coveredOf p).length = p.params.length + 3 := by
  simp [coveredOf]

@[simp] theorem length_encodeFrame (p : Packet) : (encodeFrame p).length = p.params.length + 6 := by
  simp [encodeFrame]

/-- CB.MOVE in range and out of range (R189). -/
theorem movePacket_eq (id pos speed acc : Int) :
    movePacket id pos speed acc =
      if pos < 0 ∨ 4095 < pos then .error (.positionRange pos)
      else .ok (writePacket id (regParam .acceleration) (motionData pos speed acc)) := rfl

/-- A one-byte decoder's parameters (R210). -/
theorem decodeU8_of_length {ps : List Byte} (h : ps.length ≠ 1) : decodeU8 ps = .error (.lengthMismatch 1 ps.length) := by
  match ps, h with
  | [], _ => rfl
  | [_], h => simp at h
  | _ :: _ :: _, _ => rfl

@[simp] theorem decodeU8_singleton (b : Byte) : decodeU8 [b] = .ok b := rfl

/-- A two-byte decoder's parameters (R210). -/
theorem decodeU16_of_length {ps : List Byte} (h : ps.length ≠ 2) :
    decodeU16 ps = .error (.lengthMismatch 2 ps.length) := by
  match ps, h with
  | [], _ => rfl
  | [_], _ => rfl
  | [_, _], h => simp at h
  | _ :: _ :: _ :: _, _ => rfl

@[simp] theorem decodeU16_pair (lo hi : Byte) : decodeU16 [lo, hi] = .ok (combine16 lo hi) := rfl

/-- The volts of a byte are a tenth of it (R215). -/
theorem mkRat_voltDiv_mul (n : Nat) : mkRat n Config.voltDiv * 10 = (n : Rat) := by
  rw [Rat.mkRat_eq_div]
  push_cast [Config.voltDiv]
  field_simp

/-- The numerator over `VOLT_DIV` gives the byte back (R37). -/
theorem mkRat_voltDiv_carrier (n : Nat) :
    (mkRat n Config.voltDiv).num * Config.voltDiv / (mkRat n Config.voltDiv).den = n := by
  have h := mkRat_voltDiv_mul n
  generalize mkRat n Config.voltDiv = q at h
  have hd : (q.den : Rat) ≠ 0 := by exact_mod_cast q.den_nz
  have hq : q.num * 10 = n * (q.den : Int) := by
    rw [← Rat.num_div_den q] at h
    field_simp at h
    rw [mul_comm (n : Int)]
    exact_mod_cast h
  show q.num * 10 / (q.den : Int) = n
  rw [hq]
  exact Int.mul_ediv_cancel _ (by exact_mod_cast q.den_nz)

end Sys2Proof.Machine
end

