-- ==== Sys2Proof/Laws/Step.lean ====
section
/-! SUPPORT. What the decoder, an operation and a step can do, said once. -/

namespace Sys2Proof

/-- A burst decodes to a FRAME row of its bytes, or to the feed of its bytes (R80, R99). -/
theorem decodeWire_cases (bytes : List Byte) :
    decodeWire bytes = .rxFeed bytes ∨
    ∃ (f : Frame) (code : Byte) (i : Instr), bytes = f.bytes code ∧ f.wf = true ∧ frameOp code f = some i ∧
      decodeWire bytes = i := by
  unfold decodeWire
  split
  · rename_i h1 h2 id len code tail
    split
    · rename_i h
      obtain ⟨rfl, rfl, hw⟩ := h
      cases ho : frameOp code ⟨id, len, tail⟩ with
      | none => exact .inl rfl
      | some i => exact .inr ⟨⟨id, len, tail⟩, code, i, rfl, hw, ho, rfl⟩
    · exact .inl rfl
  · exact .inl rfl

/-- The READ row's `cond` asks for the length byte 4 (R89). -/
theorem readCond_iff (f : Frame) : f.readCond = true ↔ f.length.toNat = 4 := by
  simp [Frame.readCond, BitVec.toNat_eq]

/-- The WRITE row's `cond` on a well-formed frame: a legal length byte of at least 3 (R90, R98). -/
theorem writeCond_iff {f : Frame} (hf : f.wf = true) :
    f.writeCond = true ↔ 3 ≤ f.length.toNat ∧ f.length.toNat ≤ 64 := by
  have hp : f.params.length = f.tail.length - 1 := by simp [Frame.params]
  unfold Frame.wf at hf
  split at hf
  · rename_i hl
    have hl := (Machine.legalLength_iff _).1 hl
    have ht : f.tail.length + 1 = f.length.toNat := by simpa using hf
    unfold Frame.writeCond
    cases h : f.params with
    | nil => simp [h] at hp ⊢; omega
    | cons x xs => simp [h] at hp ⊢; omega
  · rename_i hl
    have hl := mt (Machine.legalLength_iff _).2 hl
    have ht : f.tail = [] := by simpa using hf
    have : f.params = [] := by simp [Frame.params, ht]
    simp only [Frame.writeCond, this]
    constructor
    · intro h; cases h
    · omega

/-- A well-formed frame that selects a row is read as that row. -/
theorem decodeWire_of_frameOp {f : Frame} {code : Byte} {i : Instr} (hf : f.wf = true) (h : frameOp code f = some i) :
    decodeWire (f.bytes code) = i := by
  simp [Frame.bytes, decodeWire, hf, h]

/-- A well-formed frame that selects no row is received as its bytes. -/
theorem decodeWire_of_frameOp_none {f : Frame} {code : Byte} (hf : f.wf = true) (h : frameOp code f = none) :
    decodeWire (f.bytes code) = .rxFeed (f.bytes code) := by
  simp only [Frame.bytes] at *
  simp [decodeWire, hf, h]

/-- The five named codes and no other select a FRAME row (R85), READ and WRITE only under their `cond` (R102). -/
theorem frameOp_cases {code : Byte} {f : Frame} {i : Instr} (h : frameOp code f = some i) :
    (code = 1 ∧ i = .ping f) ∨ (code = 2 ∧ f.readCond = true ∧ i = .read f) ∨
      (code = 3 ∧ f.writeCond = true ∧ i = .write f) ∨ (code = 4 ∧ i = .regwrite f) ∨ (code = 5 ∧ i = .action f) := by
  have hc : code = BitVec.ofNat 8 code.toNat := by simp
  unfold frameOp at h
  split at h <;> rename_i hn <;> (try rw [hn] at hc) <;> (try split at h) <;> simp_all

/-- The decoder's results are well formed. -/
theorem decode_wf {r : Request} {i : Instr} (h : decode r = .ok i) : i.wf = true := by
  cases r with
  | wire bytes =>
    simp only [decode, Except.ok.injEq] at h
    rcases decodeWire_cases bytes with hw | ⟨f, code, j, -, hf, hj, hw⟩
    · rw [hw] at h; subst h; rfl
    · rw [hw] at h; subst h
      rcases frameOp_cases hj with ⟨-, rfl⟩ | ⟨-, hc, rfl⟩ | ⟨-, hc, rfl⟩ | ⟨-, rfl⟩ | ⟨-, rfl⟩ <;>
        simp_all [Instr.wf]
  | rxCycle p =>
    simp only [decode, decodeCycle] at h
    split at h
    · cases h; rfl
    · split at h <;> cases h; rfl
  | cb op a =>
    simp only [decode, decodeCb] at h
    split at h <;> cases h <;> rfl
  | vd op ps =>
    simp only [decode, decodeVd] at h
    split at h <;> cases h <;> rfl
  | rxChunk _ => cases h; rfl
  | chkGen _ => cases h; rfl
  | chkVerify _ _ => cases h; rfl
  | ser _ => cases h; rfl

namespace Machine

/-- The output of an operation of a pure unit, a function of its operands (R30). -/
def pureOutput : Instr → Output
  | .chkGen bytes => .byte (checksum bytes)
  | .chkVerify covered c => .verdict (verifies covered c)
  | .ser p => .ofResult ((serialize p).map .frame)
  | .cbRead id addr size => .packet (readPacket id addr size)
  | .cbWrite id addr data => .packet (writePacket id addr data)
  | .cbMove id pos speed acc => .ofResult ((movePacket id pos speed acc).map .packet)
  | .cbRotate id speed acc => .packet (rotatePacket id speed acc)
  | .cbRdPosition id => .packet (typedReadPacket .position id)
  | .cbRdSpeed id => .packet (typedReadPacket .speed id)
  | .cbRdTemperature id => .packet (typedReadPacket .temperature id)
  | .cbRdVoltage id => .packet (typedReadPacket .voltage id)
  | .cbRdLoad id => .packet (typedReadPacket .load id)
  | .cbRdCurrent id => .packet (typedReadPacket .current id)
  | .cbPing id => .packet { servoId := id, instruction := 1, params := [] }
  | .cbRegwrite id addr data => .packet { servoId := id, instruction := 4, params := addr :: data }
  | .cbAction id => .packet { servoId := id, instruction := 5, params := [] }
  | .vdU8 ps => .ofResult (u8Result ps)
  | .vdU16 ps => .ofResult (u16Result ps)
  | .vdS16 ps => .ofResult (s16Result ps)
  | .vdVoltage ps => .ofResult (voltageResult ps)
  | .vdPosition ps => .ofResult (u16Result ps)
  | .vdTemperature ps => .ofResult (u8Result ps)
  | .vdSpeed ps => .ofResult (s16Result ps)
  | .vdCurrent ps => .ofResult (s16Result ps)
  | .vdLoad ps => .ofResult (s16Result ps)
  | .ping _ => .noOutput
  | .read _ => .noOutput
  | .write _ => .noOutput
  | .regwrite _ => .noOutput
  | .action _ => .noOutput
  | .rxByte _ => .noOutput
  | .rxReset => .noOutput
  | .rxFeed _ => .noOutput

/-- An operation of a pure unit records its output and does nothing else. -/
theorem exec_of_isPure {i : Instr} (h : i.isPure = true) (s : State) : exec i s = .next (s.record (pureOutput i)) := by
  cases i with
  | ser p => simp only [exec, execSer_eq, pureOutput]
  | cbMove id pos speed acc =>
    simp only [exec, execCbMove, State.complete_eq_record, pureOutput]
  | vdU8 ps => simp only [exec, execVdU8, State.complete_eq_record, pureOutput]
  | vdU16 ps => simp only [exec, execVdU16, State.complete_eq_record, pureOutput]
  | vdS16 ps => simp only [exec, execVdS16, State.complete_eq_record, pureOutput]
  | vdVoltage ps => simp only [exec, execVdVoltage, State.complete_eq_record, pureOutput]
  | vdPosition ps => simp only [exec, execVdPosition, State.complete_eq_record, pureOutput]
  | vdTemperature ps => simp only [exec, execVdTemperature, State.complete_eq_record, pureOutput]
  | vdSpeed ps => simp only [exec, execVdSpeed, State.complete_eq_record, pureOutput]
  | vdCurrent ps => simp only [exec, execVdCurrent, State.complete_eq_record, pureOutput]
  | vdLoad ps => simp only [exec, execVdLoad, State.complete_eq_record, pureOutput]
  | ping f => cases h
  | read f => cases h
  | write f => cases h
  | regwrite f => cases h
  | action f => cases h
  | rxByte b => cases h
  | rxReset => cases h
  | rxFeed c => cases h
  | _ => rfl

/-- An operation of the deserializer is one byte, the reset, or the reception of some bytes. -/
theorem exec_of_not_isPure {i : Instr} (h : i.isPure = false) :
    (∃ b, ∀ s, exec i s = execRxByte b s) ∨ (∀ s, exec i s = execRxReset s) ∨
      ∃ bytes, ∀ s, exec i s = receive bytes s := by
  cases i with
  | rxByte b => exact .inl ⟨b, fun _ => rfl⟩
  | rxReset => exact .inr (.inl fun _ => rfl)
  | rxFeed chunk => exact .inr (.inr ⟨chunk, fun _ => rfl⟩)
  | ping f => exact .inr (.inr ⟨_, fun _ => rfl⟩)
  | read f => exact .inr (.inr ⟨_, fun _ => rfl⟩)
  | write f => exact .inr (.inr ⟨_, fun _ => rfl⟩)
  | regwrite f => exact .inr (.inr ⟨_, fun _ => rfl⟩)
  | action f => exact .inr (.inr ⟨_, fun _ => rfl⟩)
  | _ => cases h

/-- What a step can do. -/
theorem step_cases {s s' : State} (h : step s = .next s') :
    (s.pending = [] ∧ s' = s) ∨
    ∃ r rest, s.pending = r :: rest ∧
      ((decode r = .error .idleCycle ∧ s' = ({ s with pending := rest } : State).record .noOutput) ∨
        ∃ i, decode r = .ok i ∧ exec i { s with pending := rest } = .next s') := by
  unfold step at h
  split at h
  · rename_i hp
    cases h
    exact .inl ⟨hp, rfl⟩
  · rename_i r rest hp
    refine .inr ⟨r, rest, hp, ?_⟩
    unfold perform at h
    split at h
    · rename_i i hd
      exact .inr ⟨i, hd, h⟩
    · rename_i hd
      cases h
      exact .inl ⟨hd, rfl⟩
    · cases h
    · cases h

end Machine

end Sys2Proof
end

