-- ==== Sys2Proof/Tests/Slice0.lean ====
section
/-! SUPPORT. The model's own tests. Expected values come from spec/95_test_vectors.md (the id of the vector stands in the
docstring) or from the rule named; the `test_meets_…` theorems show states and operands that meet the hypotheses of the
obligation they are named after. -/

namespace Sys2Proof.Tests

open Sys2Proof.Machine

/-- A machine with a given deserializer and given requests. -/
def machine (d : Deser) (rs : List Request := []) : State :=
  { rx := d, pending := rs, outputs := [] }

/-- The deserializer and the outputs after one operation. -/
def after (i : Instr) (d : Deser := Deser.reset) : Option (Deser × List Output) :=
  match exec i (machine d) with
  | .next s => some (s.rx, s.outputs)
  | .fault _ => none
  | .refused _ => none

/-- The outputs of one operation on the reset state. -/
def outputsOf (i : Instr) : Option (List Output) :=
  (after i).map fun r => r.2

/-- The parameters of the one packet an operation built, less the first (a register address, open). -/
def dataOf (i : Instr) : Option (List Int) :=
  match outputsOf i with
  | some [.packet p] => some (p.params.drop 1)
  | _ => none

/-! ## Well-formedness: each check refuses an ill-formed term -/

theorem test_wf_frame_too_short : (Instr.ping ⟨1, 2, []⟩).wf = false := by decide
theorem test_wf_frame_too_long : (Instr.read ⟨1, 4, [0x38, 0x02, 0xBE, 0]⟩).wf = false := by decide
theorem test_wf_illegal_length_ends_the_frame : (Instr.write ⟨1, 1, [0]⟩).wf = false := by decide
theorem test_wf_length_65 : (Instr.regwrite ⟨1, 65, List.replicate 64 0⟩).wf = false := by decide
theorem test_wf_action : (Instr.action ⟨1, 2, [0, 0]⟩).wf = false := by decide
/-- R89, R90, R102: a READ frame has byte 3 = 4, a WRITE frame has its address. -/
theorem test_wf_row_conditions :
    (Instr.read ⟨1, 5, [0x38, 0x02, 0, 0xBD]⟩).wf = false ∧ (Instr.read ⟨1, 65, []⟩).wf = false ∧
    (Instr.write ⟨1, 2, [0xF9]⟩).wf = false ∧ (Instr.write ⟨1, 65, []⟩).wf = false ∧
    (Instr.write ⟨1, 3, [0x28, 0xD0]⟩).wf = true := by decide
theorem test_wf_good_frames :
    (Instr.read ⟨1, 4, [0x38, 0x02, 0xBE]⟩).wf = true ∧ (Instr.ping ⟨1, 65, []⟩).wf = true := by decide

/-- V7 to V12, V6: one packet refused by each check of R161. -/
theorem test_valid_refuses :
    Packet.valid ⟨255, 0, []⟩ = false ∧ Packet.valid ⟨-1, 0, []⟩ = false ∧ Packet.valid ⟨1, 256, []⟩ = false ∧
    Packet.valid ⟨1, -1, []⟩ = false ∧ Packet.valid ⟨1, 3, [0, 256]⟩ = false ∧
    Packet.valid ⟨1, 3, List.replicate 61 0⟩ = false ∧ Packet.valid ⟨254, 255, List.replicate 60 255⟩ = true := by decide

/-- R143: 255 and 62 parameters are receivable, 256 and 63 parameters are not. -/
theorem test_receivable_bounds :
    Packet.receivable ⟨255, 0, List.replicate 62 0⟩ = true ∧ Packet.receivable ⟨256, 0, []⟩ = false ∧
    Packet.receivable ⟨0, 256, []⟩ = false ∧ Packet.receivable ⟨0, 0, [-1]⟩ = false ∧
    Packet.receivable ⟨0, 0, List.replicate 63 0⟩ = false := by decide

/-! ## Decoding: a word or request written out from the spec for every operation -/

/-- Frames of B23, B1, B5, B24, B25 on the wire (R80, R85). -/
theorem test_decode_frames :
    decode (.wire [0xFF, 0xFF, 0x01, 0x02, 0x01, 0xFB]) = .ok (.ping ⟨1, 2, [0xFB]⟩) ∧
    decode (.wire [0xFF, 0xFF, 0x01, 0x04, 0x02, 0x38, 0x02, 0xBE]) = .ok (.read ⟨1, 4, [0x38, 0x02, 0xBE]⟩) ∧
    decode (.wire [0xFF, 0xFF, 0x01, 0x04, 0x03, 0x28, 0x01, 0xCE]) = .ok (.write ⟨1, 4, [0x28, 0x01, 0xCE]⟩) ∧
    decode (.wire [0xFF, 0xFF, 0x01, 0x05, 0x04, 0x2A, 0x00, 0x08, 0xC3]) =
      .ok (.regwrite ⟨1, 5, [0x2A, 0x00, 0x08, 0xC3]⟩) ∧
    decode (.wire [0xFF, 0xFF, 0x01, 0x02, 0x05, 0xF7]) = .ok (.action ⟨1, 2, [0xF7]⟩) := by decide

/-- V16, X1: frames with the unnamed codes 6 and 0, and a burst that is no frame, are plain feeds (R99). -/
theorem test_decode_unnamed_bursts :
    decode (.wire [0xFF, 0xFF, 0x01, 0x02, 0x06, 0xF6]) = .ok (.rxFeed [0xFF, 0xFF, 0x01, 0x02, 0x06, 0xF6]) ∧
    decode (.wire [0xFF, 0xFF, 0x01, 0x02, 0x00, 0xFC]) = .ok (.rxFeed [0xFF, 0xFF, 0x01, 0x02, 0x00, 0xFC]) ∧
    decode (.wire [0x00, 0xFF, 0x37]) = .ok (.rxFeed [0x00, 0xFF, 0x37]) := by decide

/-- R102 with R89, R90: code 2 with byte 3 = 5 and code 3 without an address meet no row's `cond`; B6 is a WRITE. -/
theorem test_decode_row_conditions :
    decode (.wire [0xFF, 0xFF, 0x01, 0x05, 0x02, 0x38, 0x02, 0x00, 0xBD]) =
      .ok (.rxFeed [0xFF, 0xFF, 0x01, 0x05, 0x02, 0x38, 0x02, 0x00, 0xBD]) ∧
    decode (.wire [0xFF, 0xFF, 0x01, 0x02, 0x03, 0xF9]) = .ok (.rxFeed [0xFF, 0xFF, 0x01, 0x02, 0x03, 0xF9]) ∧
    decode (.wire [0xFF, 0xFF, 0x01, 0x03, 0x03, 0x28, 0xD0]) = .ok (.write ⟨1, 3, [0x28, 0xD0]⟩) := by decide

/-- R102, R103: the sixteen VDOP words. -/
theorem test_decode_vdop_words :
    (List.range 16).map (decodeWord .vdOp) =
      [[.vdU8 []], [.vdU16 []], [.vdS16 []], [.vdVoltage []], [.vdPosition []], [.vdTemperature []], [.vdSpeed []],
        [.vdCurrent []], [.vdLoad []], [], [], [], [], [], [], []] := by decide

/-- P1 line 4: the RXSTEP words `0FF 1FF 201 304 400 4FF 40F 5EC`; states 6 and 7 name nothing (R22). -/
theorem test_decode_rxstep_words :
    [0x0FF, 0x1FF, 0x201, 0x304, 0x400, 0x4FF, 0x40F, 0x5EC, 0x600, 0x700].map (decodeTableWord 16) =
      [some (.rxByte 0xFF), some (.rxByte 0xFF), some (.rxByte 0x01), some (.rxByte 0x04), some (.rxByte 0x00),
        some (.rxByte 0xFF), some (.rxByte 0x0F), some (.rxByte 0xEC), none, none] := by decide

/-- R34: either reset input asks for RX.RESET, also with a byte presented. -/
theorem test_decode_cycles :
    decode (.rxCycle ⟨true, false, true, 0xFF⟩) = .ok .rxReset ∧ decode (.rxCycle ⟨false, true, false, 0⟩) = .ok .rxReset ∧
    decode (.rxCycle ⟨false, false, true, 0xFC⟩) = .ok (.rxByte 0xFC) ∧
    decode (.rxCycle ⟨false, false, false, 0xFC⟩) = .error .idleCycle := by decide

theorem test_decode_feed : decode (.rxChunk [0x0F, 0xEC]) = .ok (.rxFeed [0x0F, 0xEC]) := by decide

theorem test_decode_checksum_units :
    decode (.chkGen [1, 2, 0]) = .ok (.chkGen [1, 2, 0]) ∧
    decode (.chkVerify [1, 2, 0] 0xFC) = .ok (.chkVerify [1, 2, 0] 0xFC) := by decide

theorem test_decode_ser : decode (.ser ⟨1, 6, []⟩) = .ok (.ser ⟨1, 6, []⟩) := by decide

/-- R103: `cb_op` 0 to 12 with the operands each names (R36), 13 to 15 refused. -/
theorem test_decode_cb_ops :
    [0, 1, 2, 3, 4, 5, 6, 7, 8, 9, 10, 11, 12, 13, 15].map (fun op : Nat => decode (.cb (BitVec.ofNat 4 op)
        { servoId := 1, address := 2, size := 3, data := [4], position := 5, speed := 6, acc := 7 })) =
      [.ok (.cbRead 1 2 3), .ok (.cbWrite 1 2 [4]), .ok (.cbMove 1 5 6 7), .ok (.cbRotate 1 6 7), .ok (.cbRdPosition 1),
        .ok (.cbRdSpeed 1), .ok (.cbRdTemperature 1), .ok (.cbRdVoltage 1), .ok (.cbRdLoad 1), .ok (.cbRdCurrent 1),
        .ok (.cbPing 1), .ok (.cbRegwrite 1 2 [4]), .ok (.cbAction 1), .error (.unusedCbOp 13),
        .error (.unusedCbOp 15)] := by decide

/-- R103: `vd_op` 0 to 8, 9 to 15 refused. -/
theorem test_decode_vd_ops :
    [0, 1, 2, 3, 4, 5, 6, 7, 8, 9, 15].map (fun op : Nat => decode (.vd (BitVec.ofNat 4 op) [1, 2])) =
      [.ok (.vdU8 [1, 2]), .ok (.vdU16 [1, 2]), .ok (.vdS16 [1, 2]), .ok (.vdVoltage [1, 2]), .ok (.vdPosition [1, 2]),
        .ok (.vdTemperature [1, 2]), .ok (.vdSpeed [1, 2]), .ok (.vdCurrent [1, 2]), .ok (.vdLoad [1, 2]),
        .error (.unusedVdOp 9), .error (.unusedVdOp 15)] := by decide

/-- R102 (`mask = 0x0`): a word of a format without selecting bits stands for every row of the format. -/
theorem test_decode_words_without_selecting_bits :
    decodeWord .rxCtl 0 = [.rxReset, .rxFeed []] ∧ decodeWord .chk 0 = [.chkGen [], .chkVerify [] 0] ∧
    decodeWord .ser 0 = [.ser ⟨0, 0, []⟩] := by decide

/-- R102: a table word becomes the next request, and the very next step performs it. -/
theorem test_step_runs_a_table_word :
    (match step (State.reset.withFetchWord 40 0xFFFF010402) with
      | .next s => some (s.rx.st, s.outputs)
      | _ => none) = some (.waitHeader1, [.fed []]) ∧
    (match step (State.reset.withFetchWord 16 0x200) with
      | .next s => some (s.rx.st, s.rx.buf)
      | _ => none) = some (.waitLength, [0]) ∧
    (match step (State.reset.withFetchWord 8 0xC) with
      | .next s => some s.outputs
      | _ => none) = some [.packet ⟨0, 5, []⟩] := by decide

/-! ## The deserializer -/

/-- T1 byte 4 and X6: a legal length loads the counter with `L - 1`. -/
theorem test_rx_byte_length :
    after (.rxByte 0x02) ⟨.waitLength, [1], 0⟩ = some (⟨.waitPayload, [1, 2], 1⟩, [.noOutput]) ∧
    after (.rxByte 0x40) ⟨.waitLength, [1], 0⟩ = some (⟨.waitPayload, [1, 0x40], 63⟩, [.noOutput]) := by decide

/-- T1 byte 6 and T6 byte 6: the right checksum emits, the wrong one drops. -/
theorem test_rx_byte_checksum :
    after (.rxByte 0xFC) ⟨.waitChecksum, [1, 2, 0], 0⟩ = some (Deser.reset, [.emit ⟨1, 0, []⟩]) ∧
    after (.rxByte 0xFD) ⟨.waitChecksum, [1, 2, 0], 0⟩ = some (Deser.reset, [.noOutput]) := by decide

/-- P6 line 2. -/
theorem test_rx_reset : after .rxReset ⟨.waitPayload, [1, 4, 0, 0xFF], 1⟩ = some (Deser.reset, [.noOutput]) := by decide

/-- T2, T3, T5: leading noise, a header-2 mismatch, a stray header byte. -/
theorem test_rx_feed_headers :
    after (.rxFeed [0x00, 0x01, 0xFF, 0xFF, 0x01, 0x02, 0x00, 0xFC]) = some (Deser.reset, [.fed [⟨1, 0, []⟩]]) ∧
    after (.rxFeed [0xFF, 0x00, 0xFF, 0xFF, 0x01, 0x02, 0x00, 0xFC]) = some (Deser.reset, [.fed [⟨1, 0, []⟩]]) ∧
    after (.rxFeed [0xFF, 0xFF, 0xFF, 0x01, 0x02, 0x00, 0xFC]) = some (Deser.reset, [.fed []]) := by decide

/-- S6, X11, X12: two frames in one chunk, id 255, a partial frame. -/
theorem test_rx_feed_frames :
    after (.rxFeed [0xFF, 0xFF, 0x01, 0x04, 0x02, 0x38, 0x02, 0xBE, 0xFF, 0xFF, 0x02, 0x04, 0x03, 0x28, 0x01, 0xCD]) =
      some (Deser.reset, [.fed [⟨1, 2, [0x38, 0x02]⟩, ⟨2, 3, [0x28, 0x01]⟩]]) ∧
    after (.rxFeed [0xFF, 0xFF, 0xFF, 0x02, 0x00, 0xFE]) = some (Deser.reset, [.fed [⟨255, 0, []⟩]]) ∧
    after (.rxFeed [0xFF, 0xFF, 0x01, 0x04, 0x02]) = some (⟨.waitPayload, [1, 4, 2], 2⟩, [.fed []]) := by decide

/-- The frames of B23 and B25 received. -/
theorem test_ping_action :
    after (.ping ⟨1, 2, [0xFB]⟩) = some (Deser.reset, [.fed [⟨1, 1, []⟩]]) ∧
    after (.action ⟨1, 2, [0xF7]⟩) = some (Deser.reset, [.fed [⟨1, 5, []⟩]]) := by decide

/-- The frames of B1, B5 and B24 received. -/
theorem test_read_write_regwrite :
    after (.read ⟨1, 4, [0x38, 0x02, 0xBE]⟩) = some (Deser.reset, [.fed [⟨1, 2, [0x38, 0x02]⟩]]) ∧
    after (.write ⟨1, 4, [0x28, 0x01, 0xCE]⟩) = some (Deser.reset, [.fed [⟨1, 3, [0x28, 0x01]⟩]]) ∧
    after (.regwrite ⟨1, 5, [0x2A, 0x00, 0x08, 0xC3]⟩) = some (Deser.reset, [.fed [⟨1, 4, [0x2A, 0, 8]⟩]]) := by decide

/-- The same frames with a wrong checksum, and with the illegal length 1 (X3), leave nothing. -/
theorem test_bad_frames_leave_nothing :
    after (.ping ⟨1, 2, [0xFA]⟩) = some (Deser.reset, [.fed []]) ∧
    after (.regwrite ⟨1, 1, []⟩) = some (Deser.reset, [.fed []]) := by decide

/-! ## The checksum -/

/-- K1, K3, K5, K6, K7. -/
theorem test_chk_gen :
    [[0x01, 0x02, 0x00], [0xFE, 0x03, 0xFF, 0xFF], [0xFF, 0x01], [0x80, 0x7F], []].map (fun s => outputsOf (.chkGen s)) =
      [some [.byte 0xFC], some [.byte 0x00], some [.byte 0xFF], some [.byte 0x00], some [.byte 0xFF]] := by decide

/-- K10 to K12. -/
theorem test_chk_verify :
    [0xFC, 0xFD, 0x03].map (fun c => outputsOf (.chkVerify [1, 2, 0] c)) =
      [some [.verdict true], some [.verdict false], some [.verdict false]] := by decide

/-! ## The serializer -/

/-- V4, V16. -/
theorem test_ser_frames :
    outputsOf (.ser ⟨254, 255, [0xFF]⟩) = some [.frame [0xFF, 0xFF, 0xFE, 0x03, 0xFF, 0xFF, 0x00]] ∧
    outputsOf (.ser ⟨1, 6, []⟩) = some [.frame [0xFF, 0xFF, 0x01, 0x02, 0x06, 0xF6]] := by decide

/-- V11, V12 to V15: the first failing check, with its info. -/
theorem test_ser_errors :
    outputsOf (.ser ⟨1, 3, [0, 256, 300]⟩) = some [.error (.paramValue 1)] ∧
    outputsOf (.ser ⟨1, 3, [-1]⟩) = some [.error (.paramValue 0)] ∧
    outputsOf (.ser ⟨255, 256, List.replicate 61 999⟩) = some [.error (.servoId 255)] ∧
    outputsOf (.ser ⟨1, 256, List.replicate 61 999⟩) = some [.error (.instruction 256)] ∧
    outputsOf (.ser ⟨1, 3, List.replicate 61 999⟩) = some [.error (.paramCount 61)] := by decide

/-! ## The command encoder -/

/-- B1, B4: the builder does not check the address. -/
theorem test_cb_read :
    outputsOf (.cbRead 1 0x38 2) = some [.packet ⟨1, 2, [0x38, 0x02]⟩] ∧
    outputsOf (.cbRead 1 300 2) = some [.packet ⟨1, 2, [300, 2]⟩] := by decide

/-- B5, B6. -/
theorem test_cb_write :
    outputsOf (.cbWrite 1 0x28 [1]) = some [.packet ⟨1, 3, [0x28, 0x01]⟩] ∧
    outputsOf (.cbWrite 1 0x28 []) = some [.packet ⟨1, 3, [0x28]⟩] := by decide

/-- B7, B11, B13 (the parameters after the address, which is open). -/
theorem test_cb_move_data :
    dataOf (.cbMove 1 4095 1000 50) = some [0x32, 0xFF, 0x0F, 0, 0, 0xE8, 0x03] ∧
    dataOf (.cbMove 1 2048 65536 256) = some [0, 0, 8, 0, 0, 0, 0] ∧
    dataOf (.cbMove 1 2048 (-1) (-1)) = some [0xFF, 0, 8, 0, 0, 0xFF, 0xFF] := by decide

/-- B9, B10, B14. -/
theorem test_cb_move_refuses :
    outputsOf (.cbMove 1 4096 1000 50) = some [.error (.positionRange 4096)] ∧
    outputsOf (.cbMove 1 (-1) 0 0) = some [.error (.positionRange (-1))] ∧
    outputsOf (.cbMove 255 4096 0 0) = some [.error (.positionRange 4096)] := by decide

/-- B15, B16. -/
theorem test_cb_rotate :
    dataOf (.cbRotate 1 0x8064 0) = some [0, 0, 0, 0, 0, 0x64, 0x80] ∧
    dataOf (.cbRotate 1 100 10) = some [0x0A, 0, 0, 0, 0, 0x64, 0] := by decide

/-- B17 to B22: the sizes of the typed reads. -/
theorem test_cb_typed_reads :
    [Instr.cbRdPosition 1, .cbRdSpeed 1, .cbRdTemperature 1, .cbRdVoltage 1, .cbRdLoad 1, .cbRdCurrent 1].map dataOf =
      [some [2], some [2], some [1], some [1], some [2], some [2]] := by decide

/-- R181: the typed reads name their own registers. -/
theorem test_cb_typed_read_addresses (id : Int) :
    [RegName.position, .speed, .temperature, .voltage, .load, .current].map (fun r => (typedReadPacket r id).params.head?) =
      [RegName.position, .speed, .temperature, .voltage, .load, .current].map (fun r =>
        some ((Config.regAddr r).toNat : Int)) := rfl

/-- B23, B24, B25. -/
theorem test_cb_ping_regwrite_action :
    outputsOf (.cbPing 1) = some [.packet ⟨1, 1, []⟩] ∧
    outputsOf (.cbRegwrite 1 0x2A [0, 8]) = some [.packet ⟨1, 4, [0x2A, 0, 8]⟩] ∧
    outputsOf (.cbAction 1) = some [.packet ⟨1, 5, []⟩] := by decide

/-! ## The value decoder -/

/-- W2 to W4. -/
theorem test_vd_u8 :
    outputsOf (.vdU8 [0xFF]) = some [.value 255] ∧ outputsOf (.vdU8 []) = some [.error (.lengthMismatch 1 0)] ∧
    outputsOf (.vdU8 [1, 2]) = some [.error (.lengthMismatch 1 2)] := by decide

/-- W5, W7, W9. -/
theorem test_vd_u16 :
    outputsOf (.vdU16 [0x34, 0x12]) = some [.value 4660] ∧ outputsOf (.vdU16 [0x00, 0x80]) = some [.value 32768] ∧
    outputsOf (.vdU16 [1, 2, 3]) = some [.error (.lengthMismatch 2 3)] := by decide

/-- W11, W12, W14, W15. -/
theorem test_vd_s16 :
    [[0xFF, 0x7F], [0x00, 0x80], [0x10, 0x80], [0xFF, 0xFF]].map (fun ps => outputsOf (.vdS16 ps)) =
      [some [.value 32767], some [.value 0], some [.value (-16)], some [.value (-32767)]] := by decide

/-- W17, W19, W20, W21. -/
theorem test_vd_voltage :
    outputsOf (.vdVoltage [0x78]) = some [.volts 12] ∧ outputsOf (.vdVoltage [0xFF]) = some [.volts (mkRat 51 2)] ∧
    outputsOf (.vdVoltage [0x4A]) = some [.volts (mkRat 37 5)] ∧
    outputsOf (.vdVoltage [0x78, 0x00]) = some [.error (.lengthMismatch 1 2)] := by decide

/-- W22, W23, W24. -/
theorem test_vd_position :
    outputsOf (.vdPosition [0xFF, 0x0F]) = some [.value 4095] ∧ outputsOf (.vdPosition [0x00, 0x10]) = some [.value 4096] ∧
    outputsOf (.vdPosition [0xFF]) = some [.error (.lengthMismatch 2 1)] := by decide

/-- W25, W26. -/
theorem test_vd_temperature :
    outputsOf (.vdTemperature [0x1E]) = some [.value 30] ∧
    outputsOf (.vdTemperature [0x1E, 0x00]) = some [.error (.lengthMismatch 1 2)] := by decide

/-- W28, W29, W30, W31. -/
theorem test_vd_speed_current_load :
    outputsOf (.vdSpeed [0x64, 0x80]) = some [.value (-100)] ∧ outputsOf (.vdCurrent [0x0A, 0x80]) = some [.value (-10)] ∧
    outputsOf (.vdLoad [0xF4, 0x81]) = some [.value (-500)] ∧
    outputsOf (.vdLoad []) = some [.error (.lengthMismatch 2 0)] := by decide

/-! ## The ports -/

/-- P4 line 4: `vd_value = 120`, `vd_div10 = 1`; P5 line 3: `vd_err = 7`; a negative value on 17 bits (R37). -/
theorem test_vd_ports (free : Nat → Byte) :
    vdPortsOf free (.volts 12) = some { vdOk := true, vdErr := 0, vdValue := 120, vdDiv10 := true } ∧
    (vdPortsOf free (.error (.lengthMismatch 2 1))).map (fun p => (p.vdOk, p.vdErr)) = some (false, 7) ∧
    vdPortsOf free (.value (-16)) = some { vdOk := true, vdErr := 0, vdValue := 0x1FFF0, vdDiv10 := false } := by
  exact ⟨rfl, rfl, rfl⟩

/-- P5 line 2: `s_err = 1`, `s_nbytes = 0`; P1 line 2: `s_nbytes = 8`. -/
theorem test_ser_ports (free : Nat → Byte) :
    (serPortsOf free (.error (.servoId 255))).map (fun p => (p.sOk, p.sErr, p.sNbytes)) = some (false, 1, 0) ∧
    (serPortsOf free (.frame [0xFF, 0xFF, 0x01, 0x04, 0x02, 0x38, 0x02, 0xBE])).map
      (fun p => (p.sOk, p.sErr, p.sNbytes)) = some (true, 0, 8) := by
  exact ⟨rfl, rfl⟩

/-! ## Witnesses: states and operands that meet the hypotheses of each obligation that has some -/

theorem test_meets_DecodeReadsBackEveryEncodedOperation :
    (Instr.read ⟨1, 4, [0x38, 0x02, 0xBE]⟩).wf = true ∧ (Instr.write ⟨1, 64, List.replicate 63 0⟩).wf = true ∧
    (Instr.ping ⟨1, 2, [0xFB]⟩).wf = true ∧ (Instr.action ⟨1, 0, []⟩).wf = true := by decide

theorem test_meets_StepRunsTheDecodedOperation :
    (machine Deser.reset [byteCycle 0xFF]).pending = byteCycle 0xFF :: [] ∧ decode (byteCycle 0xFF) = .ok (.rxByte 0xFF) := by
  decide

theorem test_meets_DeserializerPortsSelectTheOperation :
    (∀ rst clr valid : Bool, (machine Deser.reset [.rxCycle ⟨rst, clr, valid, 0xFF⟩]).pending =
      .rxCycle ⟨rst, clr, valid, 0xFF⟩ :: []) ∧ (machine Deser.reset).pending = [] := by decide

theorem test_meets_UnusedSelectCodesAreRefused :
    (machine Deser.reset [.cb 13 {}]).pending = .cb 13 {} :: [] ∧ 13 ≤ (13 : BitVec 4).toNat ∧ 13 ≤ (15 : BitVec 4).toNat ∧
    (machine Deser.reset [.vd 9 []]).pending = .vd 9 [] :: [] ∧ 9 ≤ (9 : BitVec 4).toNat ∧
    9 ≤ (15 : BitVec 4).toNat := by decide

theorem test_meets_StepKeepsInvariant :
    (machine ⟨.waitChecksum, [1, 2, 0], 0⟩ [byteCycle 0xFC]).inv = true ∧
    step (machine ⟨.waitChecksum, [1, 2, 0], 0⟩ [byteCycle 0xFC]) =
      .next { rx := Deser.reset, pending := [], outputs := [.emit ⟨1, 0, []⟩] } := ⟨rfl, rfl⟩

/-- One deserializer within R25 for each parse state, at the least and the greatest length byte. -/
theorem test_meets_InvariantGivesTheShapes :
    [(⟨.waitHeader1, [], 0⟩ : Deser), ⟨.waitHeader2, [], 0⟩, ⟨.waitId, [], 0⟩, ⟨.waitLength, [7], 0⟩,
      ⟨.waitPayload, [1, 2], 1⟩, ⟨.waitPayload, [1, 64], 63⟩, ⟨.waitChecksum, [1, 2, 0], 0⟩,
      ⟨.waitChecksum, [1, 64] ++ List.replicate 63 0, 0⟩].map Deser.wf = List.replicate 8 true := by decide

theorem test_meets_StepStopsOnlyOnUnusedSelectCodes : (machine ⟨.waitPayload, [1, 64], 63⟩ [.rxChunk [0]]).inv = true := by
  decide

theorem test_meets_WaitHeader1SeeksTheHeaderByte : (machine ⟨.waitHeader1, [], 0⟩).rx.st = .waitHeader1 := rfl
theorem test_meets_WaitHeader2NeedsASecondHeaderByte : (machine ⟨.waitHeader2, [], 0⟩).rx.st = .waitHeader2 := rfl
theorem test_meets_WaitIdCapturesAnyByte : (machine ⟨.waitId, [], 0⟩).rx.st = .waitId := rfl

theorem test_meets_WaitLengthBoundsTheFrame :
    (machine ⟨.waitLength, [1], 0⟩).rx.st = .waitLength ∧
    (∀ b ∈ [(2 : Byte), 64], 2 ≤ b.toNat ∧ b.toNat ≤ 64) ∧
    (∀ b ∈ [(0 : Byte), 1, 65, 255], b.toNat < 2 ∨ 64 < b.toNat) := by decide

theorem test_meets_WaitPayloadCountsDown :
    (machine ⟨.waitPayload, [1, 2], 1⟩).rx.st = .waitPayload ∧ (machine ⟨.waitPayload, [1, 2, 0], 0⟩).rx.rem.val = 0 ∧
    1 ≤ (machine ⟨.waitPayload, [1, 2], 1⟩).rx.rem.val ∧ 1 ≤ (machine ⟨.waitPayload, [1, 64], 63⟩).rx.rem.val := by decide

/-- With the matching checksum byte (S7) and another one, at `L = 2` and at `L = 64`. -/
theorem test_meets_WaitChecksumEmitsOrDrops :
    (machine ⟨.waitChecksum, [1, 2, 0], 0⟩).rx = { st := .waitChecksum, buf := 1 :: 2 :: 0 :: [], rem := 0 } ∧
    2 ≤ (2 : Byte).toNat ∧ (2 : Byte).toNat ≤ 64 ∧ ([] : List Byte).length + 2 = (2 : Byte).toNat ∧
    (0xFC : Byte) = checksum [1, 2, 0] ∧ (0xFD : Byte) ≠ checksum [1, 2, 0] ∧
    (List.replicate 62 (0 : Byte)).length + 2 = (64 : Byte).toNat ∧ (64 : Byte).toNat ≤ 64 := by decide

theorem test_meets_WaitChecksumOutsideTheInvariantIsRefused :
    (machine ⟨.waitChecksum, [1, 2], 0⟩).rx.st = .waitChecksum ∧ (machine ⟨.waitChecksum, [1, 2], 0⟩).rx.wf = false := by
  decide

theorem test_meets_RxByteIsTotal : (machine ⟨.waitChecksum, [1, 2, 0], 0⟩).rx.wf = true := by decide

theorem test_meets_PacketsAppearOnlyAtTheirChecksumByte :
    exec (.rxByte 0xFC) (machine ⟨.waitChecksum, [1, 2, 0], 0⟩) =
      .next { rx := Deser.reset, pending := [], outputs := [.emit ⟨1, 0, []⟩] } ∧
    ({ rx := Deser.reset, pending := [], outputs := [.emit ⟨1, 0, []⟩] } : State).emitted ≠
      (machine ⟨.waitChecksum, [1, 2, 0], 0⟩).emitted := ⟨rfl, by decide⟩

/-- One state within R25 for each cause of R236, the defensive arm's state outside it, and one with no cause. -/
theorem test_meets_DropsAbortSilently :
    dropCause 0 ⟨.waitHeader1, [], 0⟩ = some .noise ∧ dropCause 0 ⟨.waitHeader2, [], 0⟩ = some .header2 ∧
    dropCause 65 ⟨.waitLength, [1], 0⟩ = some .length ∧ dropCause 0 ⟨.waitPayload, [1, 2], 0⟩ = some .underflow ∧
    dropCause 0xFD ⟨.waitChecksum, [1, 2, 0], 0⟩ = some .checksum ∧ dropCause 0xFC ⟨.waitChecksum, [1, 2, 0], 0⟩ = none ∧
    Deser.wf ⟨.waitHeader1, [], 0⟩ = true ∧ Deser.wf ⟨.waitHeader2, [], 0⟩ = true ∧
    Deser.wf ⟨.waitLength, [1], 0⟩ = true ∧ Deser.wf ⟨.waitChecksum, [1, 2, 0], 0⟩ = true := by decide

theorem test_meets_HeaderTwoFallbackHasNoObservableAlternative :
    (machine ⟨.waitHeader2, [], 0⟩).rx.st = .waitHeader2 ∧ (0x00 : Byte) ≠ 0xFF := by decide

theorem test_meets_FeedIsTheRunOfItsBytes : (machine ⟨.waitPayload, [1, 4, 2], 2⟩).rx.wf = true := by decide
theorem test_meets_ChunkBoundariesAreUnobservable : (machine ⟨.waitLength, [1], 0⟩).rx.wf = true := by decide

theorem test_meets_SerializedPacketComesBack :
    Packet.valid ⟨254, 255, List.replicate 60 0xAA⟩ = true ∧ Packet.valid ⟨0, 0, []⟩ = true ∧
    (machine Deser.reset).rx = { st := .waitHeader1, buf := [], rem := 0 } := by decide

theorem test_meets_BackToBackFramesComeBack :
    Packet.valid ⟨1, 2, [0x38, 0x02]⟩ = true ∧ Packet.valid ⟨2, 3, [0x28, 0x01]⟩ = true ∧
    (machine Deser.reset).rx = { st := .waitHeader1, buf := [], rem := 0 } := by decide

theorem test_meets_EmittedPacketsWereFramesOnTheWire :
    (machine Deser.reset).rx = { st := .waitHeader1, buf := [], rem := 0 } ∧
    exec (.rxFeed [0xFF, 0xFF, 0x01, 0x02, 0x00, 0xFC]) (machine Deser.reset) =
      .next { rx := Deser.reset, pending := [], outputs := [.fed [⟨1, 0, []⟩]] } ∧
    ({ rx := Deser.reset, pending := [], outputs := [.fed [⟨1, 0, []⟩]] } : State).outputs =
      (machine Deser.reset).outputs ++ [.fed [⟨1, 0, []⟩]] ∧
    (⟨1, 0, []⟩ : Packet) ∈ [(⟨1, 0, []⟩ : Packet)] := ⟨rfl, rfl, rfl, by decide⟩

theorem test_meets_WholeFramesAreEmittedOrDropped :
    (machine Deser.reset).rx = { st := .waitHeader1, buf := [], rem := 0 } ∧
    ([] : List Byte).length + 2 = (2 : Byte).toNat ∧ (2 : Byte).toNat ≤ 64 ∧
    (List.replicate 62 (0 : Byte)).length + 2 = (64 : Byte).toNat ∧ (64 : Byte).toNat ≤ 64 := by decide

theorem test_meets_LeadingNoiseIsIgnored :
    Packet.valid ⟨1, 0, []⟩ = true ∧ (machine Deser.reset).rx = { st := .waitHeader1, buf := [], rem := 0 } ∧
    (0xFF : Byte) ∉ [(0x00 : Byte), 0x01] ∧
    exec (.rxFeed [0xFF, 0x37]) (machine Deser.reset) =
      .next { machine Deser.reset with outputs := (machine Deser.reset).outputs ++ [.fed []] } :=
  ⟨by decide, rfl, by decide, rfl⟩

theorem test_meets_StrayHeaderBytesLoseTheFrameUnlessInFours :
    Packet.valid ⟨1, 0, []⟩ = true ∧ (machine Deser.reset).rx = { st := .waitHeader1, buf := [], rem := 0 } ∧
    4 % 4 = 0 ∧ 1 % 4 ≠ 0 := by decide

theorem test_meets_AFrameConsumesExactlyItsLength :
    (machine Deser.reset).rx = { st := .waitHeader1, buf := [], rem := 0 } ∧
    2 ≤ (2 : Byte).toNat ∧ (2 : Byte).toNat ≤ 64 ∧ [(0 : Byte), 0].length = (2 : Byte).toNat ∧
    2 ≤ (64 : Byte).toNat ∧ (64 : Byte).toNat ≤ 64 ∧ (List.replicate 64 (0xFF : Byte)).length = (64 : Byte).toNat := by decide

theorem test_meets_BackInResetWithinSixtyEightBytes :
    (machine ⟨.waitHeader2, [], 0⟩).rx.wf = true ∧ (List.replicate 68 (0xFF : Byte)).length = 68 := by decide

theorem test_meets_FrameRowsReceiveTheirBytes : (machine ⟨.waitPayload, [1, 2], 1⟩).rx.wf = true := by decide

theorem test_meets_FrameRowsEmitTheirInstructionCode :
    Frame.wf ⟨1, 2, [0xFB]⟩ = true ∧ (machine Deser.reset).rx = { st := .waitHeader1, buf := [], rem := 0 } ∧
    (Frame.mk 1 2 [0xFB]).tail = [] ++ [0xFB] ∧ Frame.wf ⟨1, 65, []⟩ = true ∧ (Frame.mk 1 65 []).tail = [] := by decide

theorem test_meets_ChecksumFormsAgree : [(1 : Byte), 2].Perm [2, 1] := by decide

theorem test_meets_RxResetEmptiesFromAnyState :
    (Instr.cbAction 1).isPure = true ∧ exec (.cbAction 1) (machine ⟨.waitPayload, [1, 2], 1⟩) =
      .next { rx := ⟨.waitPayload, [1, 2], 1⟩, pending := [], outputs := [.packet ⟨1, 5, []⟩] } := ⟨rfl, rfl⟩

theorem test_meets_ChecksumDetectsOneChangedByte :
    verifies [1, 2, 0] 0xFC = true ∧ (1 : Byte) ≠ 2 := by decide

theorem test_meets_SerEncodesValidPackets :
    (254 : Byte).toNat ≤ 254 ∧ (0 : Byte).toNat ≤ 254 ∧ (List.replicate 60 (0xAA : Byte)).length ≤ 60 := by decide

/-- Each clause at the values next to its bounds. -/
theorem test_meets_SerReportsTheFirstFailingCheck :
    ((-1 : Int) < 0 ∨ 254 < (-1 : Int)) ∧ ((255 : Int) < 0 ∨ 254 < (255 : Int)) ∧
    ((0 : Int) ≤ 254 ∧ (254 : Int) ≤ 254 ∧ ((256 : Int) < 0 ∨ 255 < (256 : Int)) ∧ ((-1 : Int) < 0 ∨ 255 < (-1 : Int))) ∧
    60 < (List.replicate 61 (999 : Int)).length ∧
    ((List.replicate 59 (255 : Int)) ++ 256 :: []).length ≤ 60 ∧
    (∀ u ∈ List.replicate 59 (255 : Int), 0 ≤ u ∧ u ≤ 255) ∧ ((256 : Int) < 0 ∨ 255 < (256 : Int)) := by decide

theorem test_meets_SerAcceptsExactlyTheValidPackets :
    Packet.valid ⟨254, 255, [0xFF]⟩ = true ∧ Packet.valid ⟨255, 0, []⟩ = false := by decide

theorem test_meets_SerFramesHaveTheFrameShape :
    exec (.ser ⟨1, 0, []⟩) (machine Deser.reset) = .next { machine Deser.reset with outputs :=
      (machine Deser.reset).outputs ++ [.frame [0xFF, 0xFF, 0x01, 0x02, 0x00, 0xFC]] } := rfl

theorem test_meets_SerIsInjective :
    exec (.ser ⟨0, 0, []⟩) (machine Deser.reset) = .next { machine Deser.reset with outputs :=
      (machine Deser.reset).outputs ++ [.frame [0xFF, 0xFF, 0x00, 0x02, 0x00, 0xFD]] } := rfl

theorem test_meets_CbMoveBuildsOrRefusesThePosition :
    (0 : Int) ≤ 0 ∧ (4095 : Int) ≤ 4095 ∧ ((-1 : Int) < 0 ∨ 4095 < (-1 : Int)) ∧
    ((4096 : Int) < 0 ∨ 4095 < (4096 : Int)) := by decide

theorem test_meets_BuiltCommandsSerialize :
    (0 : Int) ≤ 0 ∧ (0 : Int) ≤ 254 ∧ (254 : Int) ≤ 254 ∧ (0 : Int) ≤ 4095 ∧
    (List.replicate 59 (0x55 : Byte)).length ≤ 59 ∧ 59 < (List.replicate 60 (0x55 : Byte)).length := by decide

theorem test_meets_BuiltFramesAreTheirTableRows :
    (254 : Byte).toNat ≤ 254 ∧ (List.replicate 59 (0x55 : Byte)).length ≤ 59 := by decide

/-- Parameter lists of the accepted and the neighbouring lengths (W2 to W9). -/
theorem test_meets_UnsignedDecodersGiveThePlainValue :
    [(0xFF : Byte)] = [0xFF] ∧ ([] : List Byte).length ≠ 1 ∧ [(1 : Byte), 2].length ≠ 1 ∧
    [(0xFF : Byte), 0x0F] = [0xFF, 0x0F] ∧ [(1 : Byte)].length ≠ 2 ∧ [(1 : Byte), 2, 3].length ≠ 2 := by decide

theorem test_meets_SignedDecodersAreSignMagnitude :
    [(0xFF : Byte), 0x7F] = [0xFF, 0x7F] ∧ ¬128 ≤ (0x7F : Byte).toNat ∧ [(0x00 : Byte), 0x80] = [0x00, 0x80] ∧
    128 ≤ (0x80 : Byte).toNat ∧ [(0x10 : Byte)].length ≠ 2 := by decide

theorem test_meets_VoltageIsTheExactTenth : [(0x78 : Byte)] = [0x78] ∧ [(0x78 : Byte), 0x00].length ≠ 1 := by decide

theorem test_meets_SignMagnitudeLaws :
    (0x7FFF : BitVec 16).toNat < 0x8000 ∧ 0x8000 ≤ (0x8000 : BitVec 16).toNat ∧ (0x8000 : BitVec 16) ≠ 0xC000 ∧
    0x8000 ≤ (0xFFFF : BitVec 16).toNat := by decide

/-- R214's last law leaves out one value: at `0xC000` both readings are -16384 (log 31). -/
theorem test_sign_magnitude_meets_twos_complement_once :
    smag16 0xC000 = -16384 ∧ (0xC000 : BitVec 16).toInt = -16384 := by decide

theorem test_meets_PureUnitsDependOnOperandsAlone : (Instr.cbAction 1).isPure = true := rfl

theorem test_meets_OnlyTheseOperationsReportErrors :
    exec (.vdU8 []) (machine Deser.reset) = .next { rx := Deser.reset, pending := [], outputs := [.error (.lengthMismatch 1 0)] } ∧
    ({ rx := Deser.reset, pending := [], outputs := [.error (.lengthMismatch 1 0)] } : State).outputs =
      (machine Deser.reset).outputs ++ [.error (.lengthMismatch 1 0)] := ⟨rfl, rfl⟩

/-- The serializer's ports with `n` parameters. -/
def serPorts (id : Byte) (n : BitVec 7) : SerPortsIn :=
  { sId := id, sInstr := 3, sNparams := n, sParams := Vector.replicate 60 0xAA }

theorem test_meets_SerializerPortsShowTheResult :
    (machine Deser.reset [(serPorts 254 60).request]).pending = (serPorts 254 60).request :: [] ∧
    (serPorts 255 0).sId = 255 ∧ ((serPorts 255 61).sId = 255 ∧ 60 < (serPorts 255 61).sNparams.toNat) ∧
    (serPorts 254 61).sId ≠ 255 ∧ 60 < (serPorts 254 61).sNparams.toNat ∧
    (serPorts 254 60).sNparams.toNat ≤ 60 :=
  ⟨rfl, by decide, by decide, by decide, by decide, by decide⟩

theorem test_meets_PacketPortsShowTheEmittedPacket :
    (machine ⟨.waitChecksum, [1, 2, 0], 0⟩ [byteCycle 0xFC]).rx.wf = true ∧
    (machine ⟨.waitChecksum, [1, 2, 0], 0⟩ [byteCycle 0xFC]).pending = byteCycle 0xFC :: [] := by decide

theorem test_meets_DecoderPortsCarryTheValue :
    (machine Deser.reset [(VdPortsIn.mk 8 2 0xF4 0x81).request]).pending = (VdPortsIn.mk 8 2 0xF4 0x81).request :: [] ∧
    (VdPortsIn.mk 8 2 0xF4 0x81).vdOp.toNat ≤ 8 ∧ (VdPortsIn.mk 3 1 0x78 0).vdOp.toNat = 3 := by decide

/-- The builder's ports for an operation, a position and a data count. -/
def cbPorts (op : BitVec 4) (pos : BitVec 16) (ndata : BitVec 6 := 59) : CbPortsIn :=
  { cbOp := op, cbId := 1, cbAddr := 0x28, cbSize := 2, cbNdata := ndata, cbData := Vector.replicate 59 0x55,
    cbPosition := pos, cbSpeed := 0x3E8, cbAcc := 0x32 }

theorem test_meets_BuilderPortsShowThePacket :
    (machine Deser.reset [(cbPorts 12 0).request fun _ => 0]).pending = ((cbPorts 12 0).request fun _ => 0) :: [] ∧
    (cbPorts 12 0).cbOp.toNat ≤ 12 ∧ ((cbPorts 12 0).cbOp.toNat ≠ 1 ∧ (cbPorts 12 0).cbOp.toNat ≠ 11) ∧
    ((cbPorts 1 0).cbOp.toNat = 1 ∧ (cbPorts 1 0).cbNdata.toNat ≤ 59 ∧ ¬(cbPorts 1 0 60).cbNdata.toNat ≤ 59) ∧
    ((cbPorts 2 4096).cbOp.toNat = 2 ∧ 4095 < (cbPorts 2 4096).cbPosition.toNat) ∧
    ¬((cbPorts 2 4095).cbOp.toNat = 2 ∧ 4095 < (cbPorts 2 4095).cbPosition.toNat) :=
  ⟨rfl, by decide, by decide, by decide, by decide, by decide⟩

/-- R36: `cb_ndata = 63` is ignored by CB.PING and presented whole to CB.WRITE. -/
theorem test_cb_ports_take_any_ndata (free : Nat → Byte) :
    decode ((cbPorts 10 0 63).request free) = .ok (.cbPing 1) ∧ ((cbPorts 1 0 63).data free).length = 63 ∧
    (cbPorts 1 0 59).data free = List.replicate 59 0x55 := ⟨rfl, rfl, rfl⟩

/-- R37, R210: `vd_nparams = 63` is refused by its count. -/
theorem test_vd_ports_nparams_63 :
    (match step (machine Deser.reset [(VdPortsIn.mk 0 63 1 2).request]) with
      | .next s => some s.outputs
      | _ => none) = some [.error (.lengthMismatch 1 63)] := by decide

/-- The clauses at their bounds: READ at 4 and next to it, WRITE at 3, 64 and next to them, an unnamed code. -/
theorem test_meets_FramesSelectTheirTableRow :
    [(⟨1, 4, [0x38, 0x02, 0xBE]⟩ : Frame), ⟨1, 3, [0x28, 0xD0]⟩, ⟨1, 5, [0, 0, 0, 0]⟩, ⟨1, 2, [0xFB]⟩,
      ⟨1, 64, List.replicate 63 0⟩, ⟨1, 65, []⟩, ⟨1, 0, []⟩].map Frame.wf = List.replicate 7 true ∧
    5 < (6 : Byte).toNat := by decide

end Sys2Proof.Tests
end

section
/-! The pure units do not interfere with the machine: their outputs are functions of their operands (R30) and are never
packets of the deserializer (R13), reported errors included (R240). -/

namespace Sys2Proof.Machine

/-- An operation's outcome emits nothing when its results do not: the error in place of a result never does (R240). -/
theorem Output.emitted_ofResult_map {α : Type} {f : α → Output} (hf : ∀ a, (f a).emitted = [])
    (r : Except ErrKind α) : (Output.ofResult (r.map f)).emitted = [] := by
  cases r with
  | error e => rfl
  | ok a => exact hf a

/-- The u8 decoders emit nothing (R211). -/
theorem emitted_u8Result (ps : List Byte) : (Output.ofResult (u8Result ps)).emitted = [] :=
  Output.emitted_ofResult_map (fun _ => rfl) _

/-- The u16 decoders emit nothing (R212). -/
theorem emitted_u16Result (ps : List Byte) : (Output.ofResult (u16Result ps)).emitted = [] :=
  Output.emitted_ofResult_map (fun _ => rfl) _

/-- The sign-magnitude decoders emit nothing (R213). -/
theorem emitted_s16Result (ps : List Byte) : (Output.ofResult (s16Result ps)).emitted = [] :=
  Output.emitted_ofResult_map (fun _ => rfl) _

/-- No output of a pure unit is a packet of the deserializer (R13); a packet the builder built is not emitted. -/
theorem emitted_pureOutput (i : Instr) : (pureOutput i).emitted = [] := by
  cases i with
  | ser p => exact Output.emitted_ofResult_map (fun _ => rfl) _
  | cbMove id pos speed acc => exact Output.emitted_ofResult_map (fun _ => rfl) _
  | vdVoltage ps => exact Output.emitted_ofResult_map (fun _ => rfl) _
  | vdU8 ps => exact emitted_u8Result ps
  | vdTemperature ps => exact emitted_u8Result ps
  | vdU16 ps => exact emitted_u16Result ps
  | vdPosition ps => exact emitted_u16Result ps
  | vdS16 ps => exact emitted_s16Result ps
  | vdSpeed ps => exact emitted_s16Result ps
  | vdCurrent ps => exact emitted_s16Result ps
  | vdLoad ps => exact emitted_s16Result ps
  | _ => rfl

/-- Settles O54: the one output is `pureOutput i`, and recording it is all that the operation does. -/
theorem pureUnitsDependOnOperandsAlone : Obligations.PureUnitsDependOnOperandsAlone := by
  intro i hi
  exact ⟨pureOutput i, emitted_pureOutput i, exec_of_isPure hi⟩

end Sys2Proof.Machine
end

section
/-! The checksum unit (40_checksum.md): CHK.GEN and CHK.VERIFY against the exact sum of the covered bytes. -/

namespace Sys2Proof.Machine

/-- R120 as integer arithmetic over the library's sum: the complement of the exact sum, kept to eight bits. -/
theorem checksum_eq_complement_sum_mod (bytes : List Byte) :
    ((checksum bytes).toNat : Int) = (-((bytes.map BitVec.toNat).sum : Int) - 1) % 256 := by
  rw [checksum_toNat, byteSum_eq_sum]
  omega

/-- Settles O35: both units record the output of a pure operation; the byte is `checksum bytes` (R120), and the verdict is
its comparison with the given byte (R123). -/
theorem checksumUnitsFollowTheSum : Obligations.ChecksumUnitsFollowTheSum := by
  intro bytes c s
  refine ⟨checksum bytes, verifies bytes c, ?gen, checksum_eq_complement_sum_mod bytes, ?verify, ?verdict⟩
  case gen => exact exec_of_isPure (i := .chkGen bytes) rfl s
  case verify => exact exec_of_isPure (i := .chkVerify bytes c) rfl s
  case verdict => exact (verifies_iff bytes c).trans eq_comm

end Sys2Proof.Machine
end

section
/-! The frame deserializer (41_deserializer.md): one rule per row of the transition table R138, the feed of a whole frame
from the reset state, and the round trip of the serializer's frames. -/

namespace Sys2Proof.Machine

/-! ## One rule per row of the transition table -/

/-- R132: buffer and counter are not written. -/
theorem rxStep_of_waitHeader1 (b : Byte) {d : Deser} (h : d.st = .waitHeader1) :
    rxStep b d = some ({ d with st := if b = 0xFF then .waitHeader2 else .waitHeader1 }, none) := by
  rcases d with ⟨st, buf, rem⟩
  obtain rfl : st = .waitHeader1 := h
  simp only [rxStep, rxWaitHeader1, Config.header1]
  split <;> rfl

/-- R133: a mismatching byte aborts and is consumed. -/
theorem rxStep_of_waitHeader2 (b : Byte) {d : Deser} (h : d.st = .waitHeader2) :
    rxStep b d = some (if b = 0xFF then { d with st := .waitId } else Deser.reset, none) := by
  simp only [rxStep, h, rxWaitHeader2, Config.header2, Deser.abort_eq]
  split <;> rfl

/-- R134: no byte is refused as an id. -/
theorem rxStep_of_waitId (b : Byte) {d : Deser} (h : d.st = .waitId) :
    rxStep b d = some ({ st := .waitLength, buf := [b], rem := d.rem }, none) := by
  simp only [rxStep, h, rxWaitId]

/-- R135, a legal length byte: `r` is the payload still to come, instruction code and parameters. -/
theorem rxStep_of_waitLength_legal {b : Byte} {d : Deser} {r : Fin 64} (h : d.st = .waitLength)
    (hb : legalLength b = true) (hr : r.val + 1 = b.toNat) :
    rxStep b d = some ({ st := .waitPayload, buf := d.buf ++ [b], rem := r }, none) := by
  have hrem : Fin.ofNat 64 (b.toNat - 1) = r := by
    rw [← hr, Nat.add_sub_cancel, Fin.ofNat_val_eq_self]
  simp only [rxStep, h, rxWaitLength, hb, if_true, hrem]

/-- R135, an illegal length byte. -/
theorem rxStep_of_waitLength_illegal {b : Byte} {d : Deser} (h : d.st = .waitLength)
    (hb : legalLength b = false) : rxStep b d = some (Deser.reset, none) := by
  simp [rxStep, h, rxWaitLength, hb]

/-- R136 within R25, where the counter is positive: `r` is the payload still to come after this byte. -/
theorem rxStep_of_waitPayload (b : Byte) {d : Deser} {r : Fin 64} (h : d.st = .waitPayload)
    (hr : r.val + 1 = d.rem.val) :
    rxStep b d =
      some ({ st := if r.val = 0 then .waitChecksum else .waitPayload, buf := d.buf ++ [b], rem := r }, none) := by
  simp [rxStep, h, rxWaitPayload, ← hr]

/-- R137 within R25: only the checksum byte emits, and every byte ends the frame. -/
theorem rxStep_of_waitChecksum (b : Byte) {id len code : Byte} {params : List Byte}
    (hl : legalLength len = true) (hp : params.length + 2 = len.toNat) :
    rxStep b { st := .waitChecksum, buf := id :: len :: code :: params, rem := 0 } =
      some (Deser.reset,
        if b = checksum (id :: len :: code :: params) then
          some { servoId := byteInt id, instruction := byteInt code, params := params.map byteInt }
        else none) := by
  have hw : Deser.wf { st := .waitChecksum, buf := id :: len :: code :: params, rem := 0 } = true := by
    simp [Deser.wf, bufShape, hl, hp]
  simp only [rxStep, rxWaitChecksum, hw, if_true, verifies_iff, packetOf_cons3, Option.map_some, Deser.abort_eq]
  split <;> rfl

/-! ## The operations on the machine -/

/-- RX.BYTE whose step has a result gives the next state with it (R130). -/
theorem exec_rxByte_of_step {b : Byte} {s : State} {d : Deser} {o : Option Packet}
    (h : rxStep b s.rx = some (d, o)) : exec (.rxByte b) s = .next ((s.withRx d).record (.ofStep o)) := by
  simp only [exec, execRxByte, h]

/-- Writing back what the deserializer holds changes nothing. -/
theorem State.withRx_of_rx_eq {s : State} {d : Deser} (h : s.rx = d) : s.withRx d = s := by
  subst h; rfl

/-- A feed that returns to the deserializer state it started in changes nothing but the outputs (R141). -/
theorem exec_rxFeed_of_feed_returns {bytes : List Byte} {s : State} {d : Deser} {ps : List Packet}
    (hd : s.rx = d) (h : rxFeed bytes d = some (d, ps)) :
    exec (.rxFeed bytes) s = .next (s.record (.fed ps)) := by
  rw [← hd] at h
  have hf : exec (.rxFeed bytes) s = .next ((s.withRx s.rx).record (.fed ps)) := receive_of_feed h
  rwa [State.withRx_of_rx_eq rfl] at hf

/-- SER of a valid packet outputs its frame (R163). -/
theorem exec_ser_of_valid {p : Packet} (h : p.valid = true) (s : State) :
    exec (.ser p) s = .next (s.record (.frame (encodeFrame p))) := by
  rw [exec_of_isPure rfl, pureOutput, serialize_of_valid h]
  rfl

/-! ## The feed of a whole frame -/

/-- Header pair, id and legal length byte bring the reset deserializer to the payload (R132 to R135). -/
theorem rxFeed_frame_head {id len : Byte} {r : Fin 64} (hl : legalLength len = true)
    (hr : r.val + 1 = len.toNat) :
    rxFeed [0xFF, 0xFF, id, len] Deser.reset =
      some ({ st := .waitPayload, buf := [id, len], rem := r }, []) := by
  rw [rxFeed_cons_of_step (rxStep_of_waitHeader1 0xFF rfl), rxFeed_cons_of_step (rxStep_of_waitHeader2 0xFF rfl),
    rxFeed_cons_of_step (rxStep_of_waitId id rfl), rxFeed_cons_of_step (rxStep_of_waitLength_legal rfl hl hr)]
  rfl

/-- As many payload bytes as the counter says bring the deserializer to the checksum (R136). -/
theorem rxFeed_payload {payload : List Byte} (hne : payload ≠ []) (buf : List Byte) {r : Fin 64}
    (hr : r.val = payload.length) :
    rxFeed payload { st := .waitPayload, buf := buf, rem := r } =
      some ({ st := .waitChecksum, buf := buf ++ payload, rem := 0 }, []) := by
  induction payload generalizing buf r with
  | nil => exact absurd rfl hne
  | cons b rest ih =>
    rw [List.length_cons] at hr
    have hlt : rest.length < 64 := by omega
    rw [rxFeed_cons_of_step (rxStep_of_waitPayload b (r := ⟨rest.length, hlt⟩) rfl hr.symm)]
    rcases rest with _ | ⟨b', rest⟩
    · rfl
    · simp only [List.length_cons, Nat.add_eq_zero_iff, one_ne_zero, and_false, if_false]
      rw [ih (List.cons_ne_nil b' rest) (buf ++ [b]) rfl]
      simp

/-- A whole frame with a legal length byte, fed to the reset deserializer: the packet exactly for the matching checksum
byte, and the reset state after it (R137, R138, R147). -/
theorem rxFeed_frame {id len : Byte} (code c : Byte) {params : List Byte}
    (hl : legalLength len = true) (hp : params.length + 2 = len.toNat) :
    rxFeed ([0xFF, 0xFF, id, len] ++ (code :: params ++ [c])) Deser.reset =
      some (Deser.reset,
        if c = checksum (id :: len :: code :: params) then
          [{ servoId := byteInt id, instruction := byteInt code, params := params.map byteInt }]
        else []) := by
  have hlt : params.length + 1 < 64 := by
    have := (legalLength_iff len).1 hl
    omega
  have hhead := rxFeed_frame_head (id := id) (r := ⟨params.length + 1, hlt⟩) hl hp
  have hpayload := rxFeed_payload (List.cons_ne_nil code params) [id, len] (r := ⟨params.length + 1, hlt⟩) rfl
  have hlast : rxFeed [c] { st := .waitChecksum, buf := id :: len :: code :: params, rem := 0 } = _ :=
    rxFeed_cons_of_step (rxStep_of_waitChecksum c hl hp)
  rw [rxFeed_append_of hhead, rxFeed_append_of hpayload]
  simp only [List.cons_append, List.nil_append, hlast, rxFeed_nil, Option.map_some, List.append_nil]
  split <;> rfl

/-- The frame of a valid packet comes back as the packet (R145). -/
theorem rxFeed_encodeFrame {p : Packet} (h : p.valid = true) :
    rxFeed (encodeFrame p) Deser.reset = some (Deser.reset, [p]) := by
  obtain ⟨hid0, hid, hcode, hcount, hparams⟩ := (Packet.valid_iff p).1 h
  have hlen : (toByte (frameLen p)).toNat = p.params.length + 2 := by
    simp only [toByte, frameLen, BitVec.toNat_ofInt]
    omega
  have hlegal : legalLength (toByte (frameLen p)) = true := by
    rw [legalLength_iff]
    omega
  have hfeed := rxFeed_frame (id := toByte p.servoId) (toByte p.instruction) (checksum (coveredOf p))
    (params := p.params.map toByte) hlegal (by rw [hlen, List.length_map])
  rw [coveredOf, if_pos rfl, byteInt_toByte_of_isByte ((isByte_iff _).2 ⟨hid0, by omega⟩),
    byteInt_toByte_of_isByte hcode, map_byteInt_toByte hparams] at hfeed
  exact hfeed

/-! ## The obligations -/

/-- Settles O25: SER outputs `encodeFrame p`, which `rxFeed_encodeFrame` takes back to `p`. -/
theorem serializedPacketComesBack : Obligations.SerializedPacketComesBack := by
  intro p s hp hrx
  exact ⟨encodeFrame p, exec_ser_of_valid hp s, exec_rxFeed_of_feed_returns hrx (rxFeed_encodeFrame hp)⟩

/-- Settles O26: the first frame leaves the reset state (R131), from which the second comes back too. -/
theorem backToBackFramesComeBack : Obligations.BackToBackFramesComeBack := by
  intro p q s hp hq hrx
  have hfeed : rxFeed (encodeFrame p ++ encodeFrame q) Deser.reset = some (Deser.reset, [p, q]) := by
    rw [rxFeed_append_of (rxFeed_encodeFrame hp), rxFeed_encodeFrame hq]
    rfl
  exact ⟨encodeFrame p, encodeFrame q, exec_ser_of_valid hp s, exec_ser_of_valid hq s,
    exec_rxFeed_of_feed_returns hrx hfeed⟩

/-- Settles O16: the row of R137 in the machine, the output following the comparison with the checksum. -/
theorem waitChecksumEmitsOrDrops : Obligations.WaitChecksumEmitsOrDrops := by
  intro b id len code params s hrx hl1 hl2 hp
  have hstep := rxStep_of_waitChecksum b (id := id) (code := code) ((legalLength_iff len).2 ⟨hl1, hl2⟩) hp
  rw [← hrx] at hstep
  rw [exec_rxByte_of_step hstep]
  split <;> rfl

/-- Settles O11, by the row of R132. -/
theorem waitHeader1SeeksTheHeaderByte : Obligations.WaitHeader1SeeksTheHeaderByte :=
  fun b _ hst => exec_rxByte_of_step (rxStep_of_waitHeader1 b hst)

/-- Settles O12, by the row of R133. -/
theorem waitHeader2NeedsASecondHeaderByte : Obligations.WaitHeader2NeedsASecondHeaderByte :=
  fun b _ hst => exec_rxByte_of_step (rxStep_of_waitHeader2 b hst)

/-- Settles O13, by the row of R134. -/
theorem waitIdCapturesAnyByte : Obligations.WaitIdCapturesAnyByte :=
  fun b _ hst => exec_rxByte_of_step (rxStep_of_waitId b hst)

/-- Settles O14, by the two rows of R135; the counter `b - 1` fits because `b` is at most 64. -/
theorem waitLengthBoundsTheFrame : Obligations.WaitLengthBoundsTheFrame := by
  intro b s hst
  refine ⟨fun ⟨hb1, hb2⟩ => ?legal, fun hb => ?illegal⟩
  case legal =>
    exact ⟨⟨b.toNat - 1, by omega⟩, rfl, exec_rxByte_of_step
      (rxStep_of_waitLength_legal hst ((legalLength_iff b).2 ⟨hb1, hb2⟩) (by simp only; omega))⟩
  case illegal =>
    exact exec_rxByte_of_step (rxStep_of_waitLength_illegal hst ((legalLength_false_iff b).2 hb))

/-- Settles O22: RX.RESET is `abort()` in every state, and a pure operation only records its output. -/
theorem rxResetEmptiesFromAnyState : Obligations.RxResetEmptiesFromAnyState := by
  refine ⟨fun _ => rfl, fun i s t hi h => ?pure⟩
  case pure =>
    rw [exec_of_isPure hi] at h
    cases h
    rfl

end Sys2Proof.Machine
end

section
/-! The frame serializer (42_serializer.md): what SER makes of a packet whose fields are given as bytes. -/

namespace Sys2Proof.Machine

/-- A natural number keeps its low eight bits. -/
@[simp] theorem toByte_natCast (n : Nat) : toByte (n : Int) = BitVec.ofNat 8 n :=
  BitVec.ofInt_natCast 8 n

/-- Parameters given as bytes are in the range of R161 check 4. -/
theorem all_isByte_map_byteInt (bs : List Byte) : (bs.map byteInt).all isByte = true := by
  simp only [List.all_map, List.all_eq_true, Function.comp_apply, isByte_byteInt, implies_true]

/-- Parameters given as bytes stand on the wire as they are. -/
@[simp] theorem map_toByte_map_byteInt (bs : List Byte) : (bs.map byteInt).map toByte = bs := by
  rw [List.map_map]
  exact List.map_id'' toByte_byteInt bs

/-- Of the checks of R161 only the id and the parameter count are left to a packet of bytes. -/
theorem Packet.valid_of_bytes {id : Byte} (code : Byte) {params : List Byte} (hid : id.toNat ≤ 254)
    (hcount : params.length ≤ 60) :
    Packet.valid { servoId := byteInt id, instruction := byteInt code, params := params.map byteInt } = true := by
  obtain ⟨hid0, -⟩ := (isByte_iff _).1 (isByte_byteInt id)
  have hid254 : byteInt id ≤ 254 := Int.ofNat_le.2 hid
  exact (Packet.valid_iff _).2
    ⟨hid0, hid254, isByte_byteInt code, by rwa [List.length_map], all_isByte_map_byteInt params⟩

/-- R163: the frame of a packet of bytes, the length byte being `len(params) + 2` (R82). -/
theorem encodeFrame_of_bytes (id code : Byte) (params : List Byte) :
    encodeFrame { servoId := byteInt id, instruction := byteInt code, params := params.map byteInt } =
      [0xFF, 0xFF, id, BitVec.ofNat 8 (params.length + 2), code] ++ params ++
        [checksum (id :: BitVec.ofNat 8 (params.length + 2) :: code :: params)] := by
  have hcovered : coveredOf { servoId := byteInt id, instruction := byteInt code, params := params.map byteInt } =
      id :: BitVec.ofNat 8 (params.length + 2) :: code :: params := by
    simp only [coveredOf, frameLen, List.length_map, toByte_byteInt, toByte_natCast, map_toByte_map_byteInt]
  rw [encodeFrame, hcovered]
  rfl

/-- Settles O38: a packet of bytes within the bounds is valid, and SER outputs its frame (R163). -/
theorem serEncodesValidPackets : Obligations.SerEncodesValidPackets := by
  intro id code params s hid hcount
  have hser := exec_ser_of_valid (Packet.valid_of_bytes code hid hcount) s
  rwa [encodeFrame_of_bytes] at hser

end Sys2Proof.Machine
end

section
/-! The command encoder (43_command_encoder.md): the packets of register access. -/

namespace Sys2Proof.Machine

/-- R186: code 2, and the operands as the parameters, whatever their values (R185). -/
theorem readPacket_eq (id addr size : Int) :
    readPacket id addr size = { servoId := id, instruction := 2, params := [addr, size] } := rfl

/-- R188: code 3, and the address before the data, whatever their values (R185). -/
theorem writePacket_eq (id addr : Int) (data : List Int) :
    writePacket id addr data = { servoId := id, instruction := 3, params := [addr] ++ data } := rfl

/-- Settles O43: both operations are pure, so each records its one packet (R30), whose fields R186 and R188 give. -/
theorem readAndWriteBuildTheirPackets : Obligations.ReadAndWriteBuildTheirPackets := by
  intro id addr size data s
  refine ⟨?read, ?write⟩
  case read =>
    rw [← readPacket_eq]
    exact exec_of_isPure (i := .cbRead id addr size) rfl s
  case write =>
    rw [← writePacket_eq]
    exact exec_of_isPure (i := .cbWrite id addr data) rfl s

end Sys2Proof.Machine
end

section
/-! The value decoder (44_value_decoder.md): three primitives read the parameters, and each
named decoder with an integer result is one of them. -/

namespace Sys2Proof.Machine

/-! ## The three primitives -/

/-- R211: the byte, unsigned. -/
theorem u8Result_singleton (b : Byte) : u8Result [b] = .ok (.value (b.toNat : Int)) := rfl

/-- R210, for the one-byte primitive. -/
theorem u8Result_of_length {ps : List Byte} (h : ps.length ≠ 1) :
    u8Result ps = .error (.lengthMismatch 1 ps.length) := by
  rw [u8Result, decodeU8_of_length h]
  rfl

/-- R212: the little-endian combination as arithmetic on the two bytes. -/
theorem u16Result_pair (lo hi : Byte) :
    u16Result [lo, hi] = .ok (.value ((lo.toNat : Int) + 256 * (hi.toNat : Int))) := by
  have hraw : ((combine16 lo hi).toNat : Int) = (lo.toNat : Int) + 256 * (hi.toNat : Int) := by
    rw [combine16_toNat]
    push_cast
    rfl
  rw [u16Result, decodeU16_pair, ← hraw]
  rfl

/-- R210, for the two-byte unsigned primitive. -/
theorem u16Result_of_length {ps : List Byte} (h : ps.length ≠ 2) :
    u16Result ps = .error (.lengthMismatch 2 ps.length) := by
  rw [u16Result, decodeU16_of_length h]
  rfl

/-- R213 on the two bytes: bit 15 of the combination is bit 7 of the second byte. -/
theorem smag16_combine16 (lo hi : Byte) :
    smag16 (combine16 lo hi) =
      if 128 ≤ hi.toNat then -((lo.toNat : Int) + 256 * ((hi.toNat : Int) - 128))
      else (lo.toNat : Int) + 256 * (hi.toNat : Int) := by
  have hlo := lo.isLt
  have hsign : 32768 ≤ lo.toNat + 256 * hi.toNat ↔ 128 ≤ hi.toNat := by omega
  simp only [smag16_eq, combine16_toNat, hsign]
  split <;> push_cast <;> ring

/-- R213: the sign-magnitude reading as arithmetic on the two bytes. -/
theorem s16Result_pair (lo hi : Byte) :
    s16Result [lo, hi] = .ok (.value
      (if 128 ≤ hi.toNat then -((lo.toNat : Int) + 256 * ((hi.toNat : Int) - 128))
       else (lo.toNat : Int) + 256 * (hi.toNat : Int))) := by
  rw [s16Result, decodeU16_pair, ← smag16_combine16]
  rfl

/-- R210, for the sign-magnitude primitive. -/
theorem s16Result_of_length {ps : List Byte} (h : ps.length ≠ 2) :
    s16Result ps = .error (.lengthMismatch 2 ps.length) := by
  rw [s16Result, decodeU16_of_length h]
  rfl

/-! ## The named decoders -/

/-- R211, R217: VD.TEMPERATURE is the one-byte primitive. -/
theorem exec_u8Decoder {ps : List Byte} {i : Instr} (hmem : i ∈ [Instr.vdU8 ps, .vdTemperature ps]) (s : State) :
    exec i s = .next (s.complete (u8Result ps)) := by
  simp only [List.mem_cons, List.not_mem_nil, or_false] at hmem
  obtain rfl | rfl := hmem <;> rfl

/-- R212, R216: VD.POSITION is the two-byte unsigned primitive, not clamped. -/
theorem exec_u16Decoder {ps : List Byte} {i : Instr} (hmem : i ∈ [Instr.vdU16 ps, .vdPosition ps]) (s : State) :
    exec i s = .next (s.complete (u16Result ps)) := by
  simp only [List.mem_cons, List.not_mem_nil, or_false] at hmem
  obtain rfl | rfl := hmem <;> rfl

/-- R213, R218 to R220: VD.SPEED, VD.CURRENT and VD.LOAD are the sign-magnitude primitive. -/
theorem exec_s16Decoder {ps : List Byte} {i : Instr}
    (hmem : i ∈ [Instr.vdS16 ps, .vdSpeed ps, .vdCurrent ps, .vdLoad ps]) (s : State) :
    exec i s = .next (s.complete (s16Result ps)) := by
  simp only [List.mem_cons, List.not_mem_nil, or_false] at hmem
  obtain rfl | rfl | rfl | rfl := hmem <;> rfl

/-! ## The obligations -/

/-- Settles O51: the four operations are the sign-magnitude primitive, which reads the sign in the second byte. -/
theorem signedDecodersAreSignMagnitude : Obligations.SignedDecodersAreSignMagnitude := by
  intro params s i hmem
  rw [exec_s16Decoder hmem]
  refine ⟨?value, fun hlen => ?mismatch⟩
  case value =>
    rintro lo hi rfl
    rw [s16Result_pair]
    rfl
  case mismatch =>
    rw [s16Result_of_length hlen]
    rfl

/-- Settles O50: two operations are the one-byte primitive, two the two-byte unsigned one. -/
theorem unsignedDecodersGiveThePlainValue : Obligations.UnsignedDecodersGiveThePlainValue := by
  intro params s
  refine ⟨fun i hmem => ?oneByte, fun i hmem => ?twoBytes⟩
  case oneByte =>
    rw [exec_u8Decoder hmem]
    refine ⟨?value, fun hlen => ?mismatch⟩
    case value =>
      rintro b rfl
      rw [u8Result_singleton]
      rfl
    case mismatch =>
      rw [u8Result_of_length hlen]
      rfl
  case twoBytes =>
    rw [exec_u16Decoder hmem]
    refine ⟨?value, fun hlen => ?mismatch⟩
    case value =>
      rintro lo hi rfl
      rw [u16Result_pair]
      rfl
    case mismatch =>
      rw [u16Result_of_length hlen]
      rfl

end Sys2Proof.Machine
end

section
/-! The decoder and the step (30_encoding.md, 10_state.md section 6): the encoder is read back, a frame selects its row,
and a step performs what the next request decodes to. -/

namespace Sys2Proof.Machine

/-! ## What the decoder reads -/

/-- A well-formed frame on the wire that selects a row decodes to that row (R102). -/
theorem decode_wire_of_frameOp {f : Frame} {code : Byte} {i : Instr} (hf : f.wf = true)
    (h : frameOp code f = some i) : decode (.wire (f.bytes code)) = .ok i :=
  congrArg Except.ok (decodeWire_of_frameOp hf h)

/-- A well-formed frame on the wire that selects no row decodes to the feed of its bytes (R99). -/
theorem decode_wire_of_frameOp_none {f : Frame} {code : Byte} (hf : f.wf = true) (h : frameOp code f = none) :
    decode (.wire (f.bytes code)) = .ok (.rxFeed (f.bytes code)) :=
  congrArg Except.ok (decodeWire_of_frameOp_none hf h)

/-- Settles O1: a FRAME row comes back through its instruction code and its row's `cond`; of every other operation the
encoder writes the select code and the operands that the decoder reads. -/
theorem decodeReadsBackEveryEncodedOperation : Obligations.DecodeReadsBackEveryEncodedOperation := by
  intro i hi
  cases i with
  | ping f => exact decode_wire_of_frameOp hi rfl
  | read f =>
    obtain ⟨hf, hcond⟩ := Bool.and_eq_true_iff.1 hi
    exact decode_wire_of_frameOp hf (if_pos hcond)
  | write f =>
    obtain ⟨hf, hcond⟩ := Bool.and_eq_true_iff.1 hi
    exact decode_wire_of_frameOp hf (if_pos hcond)
  | regwrite f => exact decode_wire_of_frameOp hi rfl
  | action f => exact decode_wire_of_frameOp hi rfl
  | _ => rfl

/-- A frame of code 2 selects READ under the row's `cond`, and no row otherwise (R89, R102). -/
theorem frameOp_code2 (f : Frame) : frameOp 2 f = if f.readCond then some (.read f) else none := rfl

/-- A frame of code 3 selects WRITE under the row's `cond`, and no row otherwise (R90, R102). -/
theorem frameOp_code3 (f : Frame) : frameOp 3 f = if f.writeCond then some (.write f) else none := rfl

/-- The unnamed codes select no row (R99). -/
theorem frameOp_unnamed {code : Byte} (f : Frame) (h : code = 0 ∨ 5 < code.toNat) : frameOp code f = none := by
  cases hop : frameOp code f with
  | none => rfl
  | some i =>
    rcases frameOp_cases hop with ⟨rfl, -⟩ | ⟨rfl, -⟩ | ⟨rfl, -⟩ | ⟨rfl, -⟩ | ⟨rfl, -⟩ <;> simp at h

/-- An operation other than a feed is what a well-formed frame decodes to exactly when it is the row that the frame
selects. -/
theorem decode_wire_eq_iff {f : Frame} {code : Byte} {i : Instr} (hf : f.wf = true) (hi : ∀ bs, i ≠ .rxFeed bs) :
    decode (.wire (f.bytes code)) = .ok i ↔ frameOp code f = some i := by
  cases hop : frameOp code f with
  | none =>
    rw [decode_wire_of_frameOp_none hf hop, Except.ok.injEq]
    simp [(hi _).symm]
  | some j => rw [decode_wire_of_frameOp hf hop, Except.ok.injEq, Option.some.injEq]

/-- READ is selected by code 2 with the length byte 4 alone (R89). -/
theorem frameOp_eq_read_iff (code : Byte) (f : Frame) :
    frameOp code f = some (.read f) ↔ code = 2 ∧ f.length.toNat = 4 := by
  constructor
  · intro h
    rcases frameOp_cases h with ⟨-, he⟩ | ⟨rfl, hc, -⟩ | ⟨-, -, he⟩ | ⟨-, he⟩ | ⟨-, he⟩
    case inr.inl => exact ⟨rfl, (readCond_iff f).1 hc⟩
    all_goals cases he
  · rintro ⟨rfl, hl⟩
    rw [frameOp_code2, if_pos ((readCond_iff f).2 hl)]

/-- WRITE is selected by code 3 with a legal length byte of at least 3 alone (R90). -/
theorem frameOp_eq_write_iff (code : Byte) {f : Frame} (hf : f.wf = true) :
    frameOp code f = some (.write f) ↔ code = 3 ∧ 3 ≤ f.length.toNat ∧ f.length.toNat ≤ 64 := by
  constructor
  · intro h
    rcases frameOp_cases h with ⟨-, he⟩ | ⟨-, -, he⟩ | ⟨rfl, hc, -⟩ | ⟨-, he⟩ | ⟨-, he⟩
    case inr.inr.inl => exact ⟨rfl, (writeCond_iff hf).1 hc⟩
    all_goals cases he
  · rintro ⟨rfl, hl⟩
    rw [frameOp_code3, if_pos ((writeCond_iff hf).2 hl)]

/-- The frames that select no row: an unnamed code, or a code 2 or 3 whose `cond` fails (R99, R102). -/
theorem frameOp_eq_none {code : Byte} {f : Frame} (hf : f.wf = true)
    (h : code = 0 ∨ 5 < code.toNat ∨ (code = 2 ∧ f.length.toNat ≠ 4) ∨
      (code = 3 ∧ (f.length.toNat < 3 ∨ 64 < f.length.toNat))) : frameOp code f = none := by
  rcases h with h | h | ⟨rfl, hl⟩ | ⟨rfl, hl⟩
  · exact frameOp_unnamed f (.inl h)
  · exact frameOp_unnamed f (.inr h)
  · rw [frameOp_code2, if_neg (mt (readCond_iff f).1 hl)]
  · rw [frameOp_code3, if_neg (mt (writeCond_iff hf).1 (by omega))]

/-- Settles O60: `frameOp` says which row a frame selects, and the decoder follows it. -/
theorem framesSelectTheirTableRow : Obligations.FramesSelectTheirTableRow := by
  intro f code hf
  refine ⟨?ping, ?regwrite, ?action, ?read, ?write, ?feed⟩
  case ping => rintro rfl; exact decode_wire_of_frameOp hf rfl
  case regwrite => rintro rfl; exact decode_wire_of_frameOp hf rfl
  case action => rintro rfl; exact decode_wire_of_frameOp hf rfl
  case read => rw [decode_wire_eq_iff (i := .read f) hf (by simp), frameOp_eq_read_iff]
  case write => rw [decode_wire_eq_iff (i := .write f) hf (by simp), frameOp_eq_write_iff code hf]
  case feed => exact fun h => decode_wire_of_frameOp_none hf (frameOp_eq_none hf h)

/-- Settles O2, by running the decoder on each word. -/
theorem writtenOutWordsDecode : Obligations.WrittenOutWordsDecode := by
  unfold Obligations.WrittenOutWordsDecode
  decide

/-- The select codes 13 to 15 of the builder select nothing (R103). -/
theorem decodeCb_of_unused {op : BitVec 4} (a : CbArgs) (h : 13 ≤ op.toNat) :
    decodeCb op a = .error (.unusedCbOp op) := by
  unfold decodeCb
  split
  case h_14 => rfl
  all_goals omega

/-- The select codes 0 to 12 of the builder all select an operation (R103). -/
theorem decodeCb_error {op : BitVec 4} {a : CbArgs} {e : Reject} (h : decodeCb op a = .error e) :
    13 ≤ op.toNat ∧ e = .unusedCbOp op := by
  unfold decodeCb at h
  split at h <;> cases h
  refine ⟨?_, rfl⟩
  simp only [imp_false] at *
  omega

/-- The select codes 9 to 15 of the value decoder select nothing (R103). -/
theorem decodeVd_of_unused {op : BitVec 4} (ps : List Byte) (h : 9 ≤ op.toNat) :
    decodeVd op ps = .error (.unusedVdOp op) := by
  unfold decodeVd
  split
  case h_10 => rfl
  all_goals omega

/-- The select codes 0 to 8 of the value decoder all select an operation (R103). -/
theorem decodeVd_error {op : BitVec 4} {ps : List Byte} {e : Reject} (h : decodeVd op ps = .error e) :
    9 ≤ op.toNat ∧ e = .unusedVdOp op := by
  unfold decodeVd at h
  split at h <;> cases h
  refine ⟨?_, rfl⟩
  simp only [imp_false] at *
  omega

/-- The requests that select no operation: the idle cycle and the unused select codes (R34, R103). -/
theorem decode_error_cases {r : Request} {e : Reject} (h : decode r = .error e) :
    e = .idleCycle ∨ (∃ op a, r = .cb op a ∧ 13 ≤ op.toNat) ∨ ∃ op ps, r = .vd op ps ∧ 9 ≤ op.toNat := by
  cases r with
  | rxCycle p =>
    simp only [decode, decodeCycle] at h
    split at h
    · cases h
    · split at h <;> cases h
      exact .inl rfl
  | cb op a => exact .inr (.inl ⟨op, a, rfl, (decodeCb_error h).1⟩)
  | vd op ps => exact .inr (.inr ⟨op, ps, rfl, (decodeVd_error h).1⟩)
  | _ => cases h

/-! ## The step -/

/-- With nothing presented the state is held (log 3). -/
theorem step_nil {s : State} (hp : s.pending = []) : step s = .next s := by
  simp only [step, hp]

/-- A step takes the next request and performs it (R283). -/
theorem step_cons {s : State} {r : Request} {rest : List Request} (hp : s.pending = r :: rest) :
    step s = perform r { s with pending := rest } := by
  simp only [step, hp]

/-- A request that decodes to an operation is performed as that operation (R101). -/
theorem step_of_decode {s : State} {r : Request} {rest : List Request} {i : Instr} (hp : s.pending = r :: rest)
    (hd : decode r = .ok i) : step s = exec i { s with pending := rest } := by
  simp only [step_cons hp, perform, hd]

/-- The idle cycle holds the deserializer and shows no packet (R34). -/
theorem step_of_idleCycle {s : State} {r : Request} {rest : List Request} (hp : s.pending = r :: rest)
    (hd : decode r = .error .idleCycle) :
    step s = .next (({ s with pending := rest } : State).record .noOutput) := by
  simp only [step_cons hp, perform, hd]

/-- Settles O3. -/
theorem stepRunsTheDecodedOperation : Obligations.StepRunsTheDecodedOperation :=
  fun _ _ _ _ hp hd => step_of_decode hp hd

/-- Settles O4: the cycle's inputs select the operation in the order reset, byte, nothing (R34). -/
theorem deserializerPortsSelectTheOperation : Obligations.DeserializerPortsSelectTheOperation := by
  refine ⟨fun rst clr valid b s rest hp => ⟨fun h => ?reset, ?byte, ?idle⟩, fun _ hp => step_nil hp⟩
  case reset =>
    have hr : (rst || clr) = true := Bool.or_eq_true_iff.2 h
    exact step_of_decode hp (if_pos hr)
  case byte =>
    rintro rfl rfl rfl
    exact step_of_decode hp rfl
  case idle =>
    rintro rfl rfl rfl
    exact step_of_idleCycle hp rfl

/-- Settles O5: the decoder rejects the unused codes by name, and the step refuses what it rejects. -/
theorem unusedSelectCodesAreRefused : Obligations.UnusedSelectCodesAreRefused := by
  refine ⟨fun s op a rest hp h => ?builder, fun s op ps rest hp h => ?decoder⟩
  case builder =>
    have hd : decode (.cb op a) = .error (.unusedCbOp op) := decodeCb_of_unused a h
    simp only [step_cons hp, perform, hd]
  case decoder =>
    have hd : decode (.vd op ps) = .error (.unusedVdOp op) := decodeVd_of_unused ps h
    simp only [step_cons hp, perform, hd]

end Sys2Proof.Machine
end

section
/-! The invariant (10_state.md section 3): what it says of the deserializer, that every step keeps it, and that within it
only the unused select codes stop the machine. -/

namespace Sys2Proof.Machine

/-! ## What the invariant says -/

/-- The machine invariant as the two facts it joins. -/
theorem State.inv_iff (s : State) :
    s.inv = true ↔ s.rx.wf = true ∧ ∀ p ∈ s.emitted, p.receivable = true := by
  simp only [State.inv, Bool.and_eq_true, List.all_eq_true]

/-- Settles O6. -/
theorem resetValues : Obligations.ResetValues := ⟨rfl, rfl, rfl⟩

/-- Settles O7: the reset deserializer is within R25, and nothing has been emitted yet. -/
theorem resetMeetsInvariant : Obligations.ResetMeetsInvariant := by
  refine (State.inv_iff State.reset).2 ⟨Deser.reset_wf, fun p hp => ?_⟩
  cases hp

/-- R25 in the header and id states. -/
theorem Deser.header_shape {d : Deser} (hw : d.wf = true)
    (hst : d.st = .waitHeader1 ∨ d.st = .waitHeader2 ∨ d.st = .waitId) : d.buf = [] ∧ d.rem = 0 := by
  rw [Deser.wf_iff] at hw
  rcases hst with hst | hst | hst <;> simp only [hst] at hw <;> exact ⟨hw.1, Fin.ext hw.2⟩

/-- R25 in `WaitLength`. -/
theorem Deser.waitLength_shape {d : Deser} (hw : d.wf = true) (hst : d.st = .waitLength) :
    ∃ id, d.buf = [id] ∧ d.rem = 0 := by
  simp only [Deser.wf_iff, hst] at hw
  obtain ⟨hlen, hrem⟩ := hw
  obtain ⟨id, hbuf⟩ := List.length_eq_one_iff.1 hlen
  exact ⟨id, hbuf, Fin.ext hrem⟩

/-- R25 in `WaitPayload`. -/
theorem Deser.waitPayload_shape {d : Deser} (hw : d.wf = true) (hst : d.st = .waitPayload) :
    ∃ id len payload, d.buf = id :: len :: payload ∧ 2 ≤ len.toNat ∧ len.toNat ≤ 64 ∧
      1 ≤ d.rem.val ∧ d.buf.length + d.rem.val = len.toNat + 1 := by
  simp only [Deser.wf_iff, hst, bufShape_iff] at hw
  obtain ⟨⟨id, len, payload, hbuf, hl1, hl2, hcount⟩, hrem⟩ := hw
  refine ⟨id, len, payload, hbuf, hl1, hl2, hrem, ?_⟩
  simp only [hbuf, List.length_cons]
  omega

/-- Between steps the buffer holds at most 65 bytes (R23). -/
theorem Deser.buf_length_le {d : Deser} (hw : d.wf = true) : d.buf.length ≤ 65 := by
  cases hst : d.st with
  | waitHeader1 => simp [(Deser.header_shape hw (.inl hst)).1]
  | waitHeader2 => simp [(Deser.header_shape hw (.inr (.inl hst))).1]
  | waitId => simp [(Deser.header_shape hw (.inr (.inr hst))).1]
  | waitLength =>
    obtain ⟨id, hbuf, -⟩ := Deser.waitLength_shape hw hst
    simp [hbuf]
  | waitPayload =>
    obtain ⟨id, len, payload, -, -, hlen, -, hcount⟩ := Deser.waitPayload_shape hw hst
    omega
  | waitChecksum =>
    obtain ⟨id, len, code, params, rfl, -, hlen, hcount⟩ := Deser.waitChecksum_shape hw hst
    simp only [List.length_cons]
    omega

/-- Settles O9, by the shape of R25 in each parse state. -/
theorem invariantGivesTheShapes : Obligations.InvariantGivesTheShapes := by
  intro d hw
  refine ⟨Deser.buf_length_le hw, Deser.header_shape hw, Deser.waitLength_shape hw, Deser.waitPayload_shape hw,
    fun hst => ?checksum⟩
  case checksum =>
    obtain ⟨id, len, code, params, rfl, hl1, hl2, hcount⟩ := Deser.waitChecksum_shape hw hst
    exact ⟨id, len, code :: params, rfl, hl1, hl2, rfl, by simp only [List.length_cons]; omega⟩

/-! ## Every step keeps it -/

/-- Recording an output keeps the invariant when the deserializer stays within R25 and the packets are receivable. -/
theorem State.inv_withRx_record {s : State} {d : Deser} {o : Output} (hs : s.inv = true) (hd : d.wf = true)
    (ho : ∀ p ∈ o.emitted, p.receivable = true) : ((s.withRx d).record o).inv = true := by
  obtain ⟨-, hem⟩ := (State.inv_iff s).1 hs
  refine (State.inv_iff _).2 ⟨hd, fun p hp => ?_⟩
  rw [State.emitted_record, State.emitted_withRx, List.mem_append] at hp
  exact hp.elim (hem p) (ho p)

/-- Recording an output that emits nothing keeps the invariant. -/
theorem State.inv_record {s : State} {o : Output} (hs : s.inv = true) (ho : o.emitted = []) :
    (s.record o).inv = true := by
  have hem : ∀ p ∈ o.emitted, p.receivable = true := by simp [ho]
  exact State.inv_withRx_record (d := s.rx) hs ((State.inv_iff s).1 hs).1 hem

/-- A feed within R25 ends within it, and returns receivable packets (R143). -/
theorem rxFeed_keeps_wf {bs : List Byte} {d e : Deser} {ps : List Packet} (hw : d.wf = true)
    (h : rxFeed bs d = some (e, ps)) : e.wf = true ∧ ∀ p ∈ ps, p.receivable = true := by
  obtain ⟨e', qs, hfeed, he, hqs⟩ := rxFeed_some_of_wf bs hw
  cases h.symm.trans hfeed
  exact ⟨he, hqs⟩

/-- No operation leaves the invariant. -/
theorem exec_keeps_inv {i : Instr} {s t : State} (hs : s.inv = true) (h : exec i s = .next t) : t.inv = true := by
  obtain ⟨hw, -⟩ := (State.inv_iff s).1 hs
  cases hi : i.isPure with
  | true =>
    rw [exec_of_isPure hi] at h
    cases h
    exact State.inv_record hs (emitted_pureOutput i)
  | false =>
    rcases exec_of_not_isPure hi with ⟨b, he⟩ | he | ⟨bytes, he⟩
    · obtain ⟨d, o, hstep, rfl⟩ := execRxByte_next (he s ▸ h)
      obtain ⟨hd, ho⟩ := rxStep_keeps_wf hw hstep
      refine State.inv_withRx_record hs hd fun p hp => ho p ?_
      simpa [Output.emitted_ofStep] using hp
    · rw [he] at h
      cases h
      exact State.inv_withRx_record hs Deser.reset_wf nofun
    · obtain ⟨d, ps, hfeed, rfl⟩ := receive_next (he s ▸ h)
      obtain ⟨hd, hps⟩ := rxFeed_keeps_wf hw hfeed
      exact State.inv_withRx_record hs hd hps

/-- Settles O8: the request that a step takes away is no part of the invariant, and the operation keeps it. -/
theorem stepKeepsInvariant : Obligations.StepKeepsInvariant := by
  intro s s' hs h
  rcases step_cases h with ⟨-, rfl⟩ | ⟨r, rest, -, ⟨-, rfl⟩ | ⟨i, -, hi⟩⟩
  · exact hs
  · exact State.inv_record (s := { s with pending := rest }) hs rfl
  · exact exec_keeps_inv (s := { s with pending := rest }) hs hi

/-! ## Within it a step stops only on an unused select code -/

/-- Within R25 every operation gives a next state (R130, R281). -/
theorem exec_next_of_wf (i : Instr) {s : State} (hw : s.rx.wf = true) : ∃ t, exec i s = .next t := by
  cases hi : i.isPure with
  | true => exact ⟨_, exec_of_isPure hi s⟩
  | false =>
    rcases exec_of_not_isPure hi with ⟨b, he⟩ | he | ⟨bytes, he⟩
    · obtain ⟨d, o, hstep⟩ := rxStep_some_of_wf b hw
      exact ⟨_, (he s).trans (exec_rxByte_of_step hstep)⟩
    · exact ⟨_, he s⟩
    · obtain ⟨d, ps, hfeed, -⟩ := rxFeed_some_of_wf bytes hw
      exact ⟨_, (he s).trans (receive_of_feed hfeed)⟩

/-- Within the invariant a step that gives a next state is safe. -/
theorem safeStep_of_next {s t : State} (hs : s.inv = true) (h : step s = .next t) : SafeStep s :=
  ⟨t, h, stepKeepsInvariant s t hs h⟩

/-- Settles O10: a request that selects an operation is performed, the idle cycle holds the state, and the other
requests are those with an unused select code. -/
theorem stepStopsOnlyOnUnusedSelectCodes : Obligations.StepStopsOnlyOnUnusedSelectCodes := by
  intro s hs
  obtain ⟨hw, -⟩ := (State.inv_iff s).1 hs
  cases hp : s.pending with
  | nil => exact .inl (safeStep_of_next hs (step_nil hp))
  | cons r rest =>
    cases hd : decode r with
    | ok i =>
      obtain ⟨t, ht⟩ := exec_next_of_wf i (s := { s with pending := rest }) hw
      exact .inl (safeStep_of_next hs ((step_of_decode hp hd).trans ht))
    | error e =>
      rcases decode_error_cases hd with rfl | ⟨op, a, rfl, hop⟩ | ⟨op, ps, rfl, hop⟩
      · exact .inl (safeStep_of_next hs (step_of_idleCycle hp hd))
      · exact .inr (.inl ⟨op, a, rest, rfl, hop⟩)
      · exact .inr (.inr ⟨op, ps, rest, rfl, hop⟩)

end Sys2Proof.Machine
end

section
/-! One received byte (41_deserializer.md sections 1 and 2, 60_exceptions.md section 2): when RX.BYTE completes, when a
packet appears, and what a drop leaves. -/

namespace Sys2Proof.Machine

/-- A deserializer step's output is none or one packet (R130). -/
theorem Output.ofStep_cases (o : Option Packet) : Output.ofStep o = .noOutput ∨ ∃ p, Output.ofStep o = .emit p := by
  cases o with
  | none => exact .inl rfl
  | some p => exact .inr ⟨p, rfl⟩

/-- Settles O18, by the totality of the deserializer's step within R25. -/
theorem rxByteIsTotal : Obligations.RxByteIsTotal := by
  intro b s hw
  obtain ⟨d, o, hstep⟩ := rxStep_some_of_wf b hw
  exact ⟨d, .ofStep o, exec_rxByte_of_step hstep, (rxStep_keeps_wf hw hstep).1, Output.ofStep_cases o⟩

/-- The one row of the transition table R138 that emits. -/
theorem rxStep_emits {b : Byte} {d d' : Deser} {p : Packet} (h : rxStep b d = some (d', some p)) :
    d.st = .waitChecksum ∧ d.wf = true ∧ b = checksum d.buf ∧ d' = Deser.reset ∧ packetOf d.buf = some p := by
  rcases rxStep_cases h with
    ⟨-, -, -, ho⟩ | ⟨-, -, -, ho⟩ | ⟨-, -, -, ho⟩ | ⟨-, -, -, ho⟩ | ⟨-, -, ho⟩ | ⟨-, -, -, -, -, -, ho⟩ |
    ⟨-, -, -, ho⟩ | ⟨-, -, -, -, -, ho⟩ | ⟨-, -, -, ho⟩ | ⟨hst, hw, hb, hd, q, hq, ho⟩ | ⟨-, -, -, -, ho⟩
  case inr.inr.inr.inr.inr.inr.inr.inr.inr.inl =>
    cases ho
    exact ⟨hst, hw, hb, hd, hq⟩
  all_goals cases ho

/-- Settles O19: a step that changes what has been emitted is the emitting row of R138. -/
theorem packetsAppearOnlyAtTheirChecksumByte : Obligations.PacketsAppearOnlyAtTheirChecksumByte := by
  intro b s t h hne
  obtain ⟨d, o, hstep, rfl⟩ := execRxByte_next h
  rw [State.emitted_record, Output.emitted_ofStep, State.emitted_withRx] at hne ⊢
  cases o with
  | none => exact absurd (List.append_nil _) hne
  | some p =>
    obtain ⟨hst, -, hb, hd, -⟩ := rxStep_emits hstep
    exact ⟨hst, hb, hd, p, rfl⟩

/-- R136, the defensive arm: a counter already 0 aborts (D31). -/
theorem rxStep_of_waitPayload_underflow (b : Byte) {d : Deser} (h : d.st = .waitPayload) (hr : d.rem.val = 0) :
    rxStep b d = some (Deser.reset, none) := by
  simp [rxStep, h, rxWaitPayload, hr]

/-- R137: a byte other than the checksum drops the frame. -/
theorem rxStep_of_waitChecksum_mismatch {b : Byte} {d : Deser} (h : d.st = .waitChecksum) (hw : d.wf = true)
    (hb : verifies d.buf b = false) : rxStep b d = some (Deser.reset, none) := by
  simp [rxStep, h, rxWaitChecksum, hw, hb]

/-- Settles O15, by the two rows of R136. -/
theorem waitPayloadCountsDown : Obligations.WaitPayloadCountsDown := by
  intro b s hst
  refine ⟨fun hr => exec_rxByte_of_step (rxStep_of_waitPayload_underflow b hst hr), fun hr => ?counts⟩
  case counts =>
    have hlt := s.rx.rem.isLt
    have hpred : s.rx.rem.val - 1 + 1 = s.rx.rem.val := by omega
    exact ⟨⟨s.rx.rem.val - 1, by omega⟩, hpred, exec_rxByte_of_step (rxStep_of_waitPayload b hst hpred)⟩

/-- Settles O17: `WaitChecksum` outside R25 is the one case where the step has no result. -/
theorem waitChecksumOutsideTheInvariantIsRefused : Obligations.WaitChecksumOutsideTheInvariantIsRefused := by
  intro b s hst hw
  have hnone : rxStep b s.rx = none := (rxStep_eq_none_iff b s.rx).2 ⟨hst, hw⟩
  simp only [exec, execRxByte, hnone]

/-- Settles O21: the rejected byte aborts to `WaitHeader1` (R133), where the same byte is no header byte either (R132). -/
theorem headerTwoFallbackHasNoObservableAlternative : Obligations.HeaderTwoFallbackHasNoObservableAlternative := by
  intro b s hst hb
  have hfirst : rxStep b s.rx = some (Deser.reset, none) := by rw [rxStep_of_waitHeader2 b hst, if_neg hb]
  have hsecond : rxStep b Deser.reset = some (Deser.reset, none) := by
    rw [rxStep_of_waitHeader1 b rfl, if_neg hb]
    rfl
  refine ⟨_, _, exec_rxByte_of_step hfirst, exec_rxByte_of_step hsecond, rfl, ?_, ?_⟩ <;>
    simp [Output.ofStep, Output.emitted]

/-- Each cause of a drop aborts without output (R236, R241); the defensive arm does so outside R25 too (D31). -/
theorem rxStep_of_dropCause {b : Byte} {d : Deser} {c : DropCause} (hc : dropCause b d = some c)
    (hw : d.wf = true ∨ c = .underflow) : rxStep b d = some (Deser.reset, none) := by
  cases hst : d.st <;> simp only [dropCause, hst] at hc
  case waitId => cases hc
  all_goals split at hc <;> cases hc
  case waitHeader1 hb =>
    obtain rfl := Deser.eq_reset_of_wf (hw.resolve_right nofun) hst
    rw [rxStep_of_waitHeader1 b hst, if_neg hb]
    rfl
  case waitHeader2 hb => rw [rxStep_of_waitHeader2 b hst, if_neg hb]
  case waitLength hb => exact rxStep_of_waitLength_illegal hst (Bool.not_eq_true _ ▸ hb)
  case waitPayload hr => exact rxStep_of_waitPayload_underflow b hst hr
  case waitChecksum hb => exact rxStep_of_waitChecksum_mismatch hst (hw.resolve_right nofun) (Bool.not_eq_true _ ▸ hb)

/-- A step that has a result and no drop cause stays inside the frame or emits (R138). -/
theorem rxStep_of_dropCause_none {b : Byte} {d d' : Deser} {o : Option Packet} (hc : dropCause b d = none)
    (h : rxStep b d = some (d', o)) : d'.st ≠ .waitHeader1 ∨ ∃ p, o = some p := by
  rcases rxStep_cases h with
    ⟨-, -, rfl, -⟩ | ⟨hst, hb, -, -⟩ | ⟨-, -, rfl, -⟩ | ⟨hst, hb, -, -⟩ | ⟨-, rfl, -⟩ | ⟨-, -, -, hst', -, -, -⟩ |
    ⟨hst, hb, -, -⟩ | ⟨-, -, hst', -, -, -⟩ | ⟨hst, hr, -, -⟩ | ⟨-, -, -, -, p, -, rfl⟩ | ⟨hst, -, hb, -, -⟩
  · exact .inl nofun
  · exact absurd (by simpa [dropCause, hst] using hc) hb
  · exact .inl nofun
  · exact absurd (by simpa [dropCause, hst] using hc) hb
  · exact .inl nofun
  · exact .inl (hst' ▸ nofun)
  · simp [dropCause, hst, hb] at hc
  · exact .inl (by rw [hst']; split <;> simp)
  · simp [dropCause, hst, hr] at hc
  · exact .inr ⟨p, rfl⟩
  · simp [dropCause, hst, verifies_iff, hb] at hc

/-- Settles O20: the drop causes are the aborting rows of R138, and the other rows go on with the frame or emit. -/
theorem dropsAbortSilently : Obligations.DropsAbortSilently := by
  refine fun b s => ⟨fun c hc hw => exec_rxByte_of_step (rxStep_of_dropCause hc hw), fun hc hw => ?goesOn⟩
  case goesOn =>
    obtain ⟨d, o, hstep⟩ := rxStep_some_of_wf b hw
    refine ⟨_, exec_rxByte_of_step hstep, (rxStep_of_dropCause_none hc hstep).imp_right ?_⟩
    rintro ⟨p, rfl⟩
    exact ⟨p, by simp [Output.ofStep, Output.emitted]⟩

end Sys2Proof.Machine
end

section
/-! Feeds (41_deserializer.md sections 4 to 6): a feed is the run of its bytes, however they are cut, and the FRAME rows
are feeds. -/

namespace Sys2Proof.Machine

/-! ## Feeds as runs -/

/-- A run of one step more is the step and the run from the state it gives. -/
theorem run_succ_of_step {s t : State} {k : Nat} (h : step s = .next t) :
    Host.Core.run Sys2Proof.core (k + 1) s = Host.Core.run Sys2Proof.core k t := by
  have hcore : Sys2Proof.core.step s = .next t := h
  simp only [Host.Core.run, hcore]

/-- Requests `req a` that each perform as the feed of some bytes `bytesOf a`: a run of them reaches the deserializer that
the feed of all the bytes reaches, and its outputs emit what that feed returns (R141). -/
theorem run_of_feeds {α : Type} (req : α → Request) (bytesOf : α → List Byte)
    (hstep : ∀ (a : α) (s : State) (rest : List Request) (d : Deser) (ps : List Packet),
      s.pending = req a :: rest → rxFeed (bytesOf a) s.rx = some (d, ps) →
      ∃ o : Output, step s = .next { rx := d, pending := rest, outputs := s.outputs ++ [o] } ∧ o.emitted = ps)
    (as : List α) (s : State) (hw : s.rx.wf = true) :
    ∃ (d : Deser) (os : List Output),
      rxFeed (as.flatMap bytesOf) s.rx = some (d, os.flatMap Output.emitted) ∧
      Host.Core.run Sys2Proof.core as.length ({ s with pending := as.map req ++ s.pending } : State) =
        (.next { s with rx := d, outputs := s.outputs ++ os } : Host.Outcome State Fault Refusal) := by
  induction as generalizing s with
  | nil =>
    refine ⟨s.rx, [], rfl, ?_⟩
    rw [List.append_nil]
    rfl
  | cons a as ih =>
    obtain ⟨d, ps, hfeed, hd, -⟩ := rxFeed_some_of_wf (bytesOf a) hw
    obtain ⟨o, ho, rfl⟩ := hstep a { s with pending := (a :: as).map req ++ s.pending } _ d ps rfl hfeed
    obtain ⟨e, os, hfeeds, hrun⟩ := ih { s with rx := d, outputs := s.outputs ++ [o] } hd
    refine ⟨e, o :: os, ?feed, ?run⟩
    case feed =>
      rw [List.flatMap_cons, rxFeed_append_of hfeed, hfeeds]
      rfl
    case run =>
      rw [List.append_assoc, List.singleton_append] at hrun
      exact (run_succ_of_step ho).trans hrun

/-- The cycle of a byte performs as the feed of that byte. -/
theorem step_byteCycle_of_feed {b : Byte} {s : State} {rest : List Request} {d : Deser} {ps : List Packet}
    (hp : s.pending = byteCycle b :: rest) (h : rxFeed [b] s.rx = some (d, ps)) :
    ∃ o : Output, step s = .next { rx := d, pending := rest, outputs := s.outputs ++ [o] } ∧ o.emitted = ps := by
  obtain ⟨d', o, qs, hstep, hnil, rfl⟩ := rxFeed_cons_inv h
  cases hnil
  refine ⟨.ofStep o, ?_, by rw [Output.emitted_ofStep, List.append_nil]⟩
  rw [step_of_decode hp rfl]
  exact exec_rxByte_of_step (s := { s with pending := rest }) hstep

/-- The request of a chunk performs as the feed of that chunk. -/
theorem step_rxChunk_of_feed {chunk : List Byte} {s : State} {rest : List Request} {d : Deser} {ps : List Packet}
    (hp : s.pending = .rxChunk chunk :: rest) (h : rxFeed chunk s.rx = some (d, ps)) :
    ∃ o : Output, step s = .next { rx := d, pending := rest, outputs := s.outputs ++ [o] } ∧ o.emitted = ps := by
  refine ⟨.fed ps, ?_, rfl⟩
  rw [step_of_decode hp rfl]
  exact receive_of_feed (s := { s with pending := rest }) h

/-- Settles O23: the chunk is presented byte by byte. -/
theorem feedIsTheRunOfItsBytes : Obligations.FeedIsTheRunOfItsBytes := by
  intro chunk s hw
  obtain ⟨d, os, hfeed, hrun⟩ := run_of_feeds byteCycle (fun b => [b])
    (fun _ _ _ _ _ hp h => step_byteCycle_of_feed hp h) chunk s hw
  rw [List.flatMap_singleton'] at hfeed
  refine ⟨d, _, os, receive_of_feed hfeed, hrun, rfl, ?empty⟩
  case empty =>
    rintro rfl
    obtain ⟨hd, hps⟩ := Prod.mk.inj (Option.some.inj hfeed)
    exact ⟨hd.symm, hps.symm⟩

/-- Settles O24: the pieces are presented one after another. -/
theorem chunkBoundariesAreUnobservable : Obligations.ChunkBoundariesAreUnobservable := by
  intro chunks s hw
  obtain ⟨d, os, hfeed, hrun⟩ := run_of_feeds Request.rxChunk id
    (fun _ _ _ _ _ hp h => step_rxChunk_of_feed hp h) chunks s hw
  rw [List.flatMap_id] at hfeed
  exact ⟨d, _, os, receive_of_feed hfeed, hrun, rfl⟩

/-! ## The FRAME rows -/

/-- A FRAME row is the reception of its frame (R85, R143; log 5). -/
theorem exec_frameRow {f : Frame} {q : Instr × Byte}
    (hmem : q ∈ [(Instr.ping f, (1 : Byte)), (.read f, 2), (.write f, 3), (.regwrite f, 4), (.action f, 5)])
    (s : State) : exec q.1 s = receive (f.bytes q.2) s := by
  simp only [List.mem_cons, List.not_mem_nil, or_false] at hmem
  obtain rfl | rfl | rfl | rfl | rfl := hmem <;> rfl

/-- Settles O33: both operations are the reception of the frame's bytes. -/
theorem frameRowsReceiveTheirBytes : Obligations.FrameRowsReceiveTheirBytes := by
  intro f s hw q hmem
  obtain ⟨d, ps, hfeed, hd, -⟩ := rxFeed_some_of_wf (f.bytes q.2) hw
  exact ⟨d, ps, (exec_frameRow hmem s).trans (receive_of_feed hfeed), hd, receive_of_feed hfeed⟩

/-- A whole frame with a legal length byte, presented to the reset deserializer as one reception. -/
theorem receive_frame {id len : Byte} (code c : Byte) {params : List Byte} {s : State} (hrx : s.rx = Deser.reset)
    (hl : legalLength len = true) (hp : params.length + 2 = len.toNat) :
    receive ([0xFF, 0xFF, id, len] ++ (code :: params ++ [c])) s =
      .next (s.record (.fed (if c = checksum (id :: len :: code :: params) then
        [{ servoId := byteInt id, instruction := byteInt code, params := params.map byteInt }] else []))) :=
  exec_rxFeed_of_feed_returns hrx (rxFeed_frame code c hl hp)

/-- Settles O28, by the feed of a whole frame. -/
theorem wholeFramesAreEmittedOrDropped : Obligations.WholeFramesAreEmittedOrDropped := by
  intro id len code c params s hrx hp hlen
  exact receive_frame code c hrx ((legalLength_iff len).2 ⟨by omega, hlen⟩) hp

/-- A well-formed frame with bytes after its code has a legal length byte that counts them (R82; log 6). -/
theorem Frame.wf_of_tail_append {f : Frame} {params : List Byte} {c : Byte} (hf : f.wf = true)
    (ht : f.tail = params ++ [c]) : legalLength f.length = true ∧ params.length + 2 = f.length.toNat := by
  cases hl : legalLength f.length with
  | true => simpa [Frame.wf, hl, ht] using hf
  | false => simp [Frame.wf, hl, ht] at hf

/-- A well-formed frame that ends with its code has an illegal length byte (log 6). -/
theorem Frame.illegal_of_tail_nil {f : Frame} (hf : f.wf = true) (ht : f.tail = []) :
    legalLength f.length = false := by
  cases hl : legalLength f.length with
  | false => rfl
  | true =>
    have hlen := (legalLength_iff _).1 hl
    simp [Frame.wf, hl, ht] at hf
    omega

/-- An illegal length byte drops the frame, and a code that is no header byte is discarded after it (R135, R132). -/
theorem rxFeed_illegal_frame (id : Byte) {len code : Byte} (hl : legalLength len = false) (hc : code ≠ 0xFF) :
    rxFeed [0xFF, 0xFF, id, len, code] Deser.reset = some (Deser.reset, []) := by
  have hlast : rxStep code Deser.reset = some (Deser.reset, none) := by
    rw [rxStep_of_waitHeader1 code rfl, if_neg hc]
    rfl
  rw [rxFeed_cons_of_step (rxStep_of_waitHeader1 0xFF rfl), rxFeed_cons_of_step (rxStep_of_waitHeader2 0xFF rfl),
    rxFeed_cons_of_step (rxStep_of_waitId id rfl), rxFeed_cons_of_step (rxStep_of_waitLength_illegal rfl hl),
    rxFeed_cons_of_step hlast]
  rfl

/-- No instruction code of a FRAME row is a header byte (R85). -/
theorem frameRow_code_ne_header {f : Frame} {q : Instr × Byte}
    (hmem : q ∈ [(Instr.ping f, (1 : Byte)), (.read f, 2), (.write f, 3), (.regwrite f, 4), (.action f, 5)]) :
    q.2 ≠ 0xFF := by
  simp only [List.mem_cons, List.not_mem_nil, or_false] at hmem
  obtain rfl | rfl | rfl | rfl | rfl := hmem <;> simp

/-- Settles O34: the row receives its frame, which is whole when its length byte is legal and dropped otherwise. -/
theorem frameRowsEmitTheirInstructionCode : Obligations.FrameRowsEmitTheirInstructionCode := by
  intro f s hf hrx q hmem
  rw [exec_frameRow hmem]
  refine ⟨fun params c ht => ?whole, fun ht => ?illegal⟩
  case whole =>
    obtain ⟨hl, hp⟩ := Frame.wf_of_tail_append hf ht
    rw [Frame.bytes, ht]
    exact receive_frame q.2 c hrx hl hp
  case illegal =>
    rw [Frame.bytes, ht]
    exact exec_rxFeed_of_feed_returns hrx
      (rxFeed_illegal_frame f.servoId (Frame.illegal_of_tail_nil hf ht) (frameRow_code_ne_header hmem))

end Sys2Proof.Machine
end

section
/-! Emitted packets and the wire (41_deserializer.md sections 5 and 6): the bytes a deserializer holds of the frame it is
in, and where in a feed the frame of an emitted packet stands. -/

namespace Sys2Proof.Machine

/-! ## The bytes of the frame under way -/

/-- The bytes already received of the frame the deserializer is in, header bytes included (R23 keeps those out of the
buffer). -/
def Deser.held (d : Deser) : List Byte :=
  match d.st with
  | .waitHeader1 => []
  | .waitHeader2 => [0xFF]
  | .waitId => [0xFF, 0xFF]
  | .waitLength => 0xFF :: 0xFF :: d.buf
  | .waitPayload => 0xFF :: 0xFF :: d.buf
  | .waitChecksum => 0xFF :: 0xFF :: d.buf

/-- Within R25 a byte is added to the frame under way or leaves the reset state (R138). -/
theorem rxStep_held {b : Byte} {d d' : Deser} {o : Option Packet} (hw : d.wf = true)
    (h : rxStep b d = some (d', o)) : d' = Deser.reset ∨ d'.held = d.held ++ [b] := by
  rcases rxStep_cases h with
    ⟨hst, rfl, rfl, -⟩ | ⟨hst, -, rfl, -⟩ | ⟨hst, rfl, rfl, -⟩ | ⟨-, -, hd, -⟩ | ⟨hst, rfl, -⟩ |
    ⟨hst, -, -, hst', hbuf, -, -⟩ | ⟨-, -, hd, -⟩ | ⟨hst, -, hst', hbuf, -, -⟩ | ⟨-, -, hd, -⟩ |
    ⟨-, -, -, hd, -⟩ | ⟨-, -, -, hd, -⟩
  · exact .inr (by simp [Deser.held, hst])
  · exact .inl (Deser.eq_reset_of_wf hw hst)
  · exact .inr (by simp [Deser.held, hst])
  · exact .inl hd
  · exact .inr (by simp [Deser.held, hst])
  · exact .inr (by simp [Deser.held, hst, hst', hbuf])
  · exact .inl hd
  · refine .inr ?_
    split at hst' <;> simp [Deser.held, hst, hst', hbuf]
  · exact .inl hd
  · exact .inl hd
  · exact .inl hd

/-- The frame of an emitted packet is the frame the deserializer was in, completed by the checksum byte (R142, R163). -/
theorem rxStep_emits_held {b : Byte} {d d' : Deser} {p : Packet} (h : rxStep b d = some (d', some p)) :
    d.held ++ [b] = encodeFrame p := by
  obtain ⟨hst, hw, rfl, -, hp⟩ := rxStep_emits h
  obtain ⟨id, len, code, params, rfl, -, hlen, hcount⟩ := Deser.waitChecksum_shape hw hst
  cases hp
  have hl : BitVec.ofNat 8 (params.length + 2) = len := by rw [hcount, BitVec.ofNat_toNat, BitVec.setWidth_eq]
  rw [encodeFrame_of_bytes, hl]
  rfl

/-! ## The frame of an emitted packet in a feed -/

/-- A packet that a feed returns completes the frame under way, or its frame begins at a point of the feed where the
deserializer is in the reset state. -/
theorem rxFeed_emits {bytes : List Byte} {d e : Deser} {ps : List Packet} {p : Packet} (hw : d.wf = true)
    (h : rxFeed bytes d = some (e, ps)) (hp : p ∈ ps) :
    (∃ post, d.held ++ bytes = encodeFrame p ++ post) ∨
      ∃ pre qs post, bytes = pre ++ encodeFrame p ++ post ∧ rxFeed pre d = some (Deser.reset, qs) := by
  induction bytes generalizing d ps with
  | nil => cases h; cases hp
  | cons b bs ih =>
    obtain ⟨d', o, qs, hstep, hfeed, rfl⟩ := rxFeed_cons_inv h
    rcases List.mem_append.1 hp with ho | hq
    · obtain rfl : o = some p := by simpa using ho
      exact .inl ⟨bs, by rw [← rxStep_emits_held hstep, List.append_assoc]; rfl⟩
    · rcases ih (rxStep_keeps_wf hw hstep).1 hfeed hq with ⟨post, hpost⟩ | ⟨pre, rs, post, rfl, hpre⟩
      · rcases rxStep_held hw hstep with rfl | hheld
        · exact .inr ⟨[b], o.toList ++ [], post, congrArg (b :: ·) hpost, rxFeed_cons_of_step hstep⟩
        · exact .inl ⟨post, by rw [← hpost, hheld, List.append_assoc]; rfl⟩
      · exact .inr ⟨b :: pre, o.toList ++ rs, post, rfl, by rw [rxFeed_cons_of_step hstep, hpre]; rfl⟩

/-- A packet that a feed of the reset deserializer returns has its frame in the feed, beginning at a point where the
deserializer is in the reset state. -/
theorem rxFeed_reset_emits {bytes : List Byte} {e : Deser} {ps : List Packet} {p : Packet}
    (h : rxFeed bytes Deser.reset = some (e, ps)) (hp : p ∈ ps) :
    ∃ pre qs post, bytes = pre ++ encodeFrame p ++ post ∧ rxFeed pre Deser.reset = some (Deser.reset, qs) := by
  rcases rxFeed_emits Deser.reset_wf h hp with ⟨post, hpost⟩ | hpre
  · exact ⟨[], [], post, hpost, rfl⟩
  · exact hpre

/-- A receivable packet is made of bytes (R143). -/
theorem Packet.exists_bytes_of_receivable {p : Packet} (h : p.receivable = true) :
    ∃ (id code : Byte) (params : List Byte), params.length ≤ 62 ∧
      p = { servoId := byteInt id, instruction := byteInt code, params := params.map byteInt } := by
  obtain ⟨hid, hcode, hcount, hparams⟩ := (Packet.receivable_iff p).1 h
  refine ⟨toByte p.servoId, toByte p.instruction, p.params.map toByte, by rwa [List.length_map], ?_⟩
  rw [byteInt_toByte_of_isByte hid, byteInt_toByte_of_isByte hcode, map_byteInt_toByte hparams]

/-- The length byte of a frame of at most 62 parameters counts them, the code and the checksum (R82). -/
theorem lengthByte_toNat {n : Nat} (h : n ≤ 62) : (BitVec.ofNat 8 (n + 2)).toNat = n + 2 := by
  rw [BitVec.toNat_ofNat]
  omega

/-- Settles O27: the packet is receivable, and its frame stands in the feed. -/
theorem emittedPacketsWereFramesOnTheWire : Obligations.EmittedPacketsWereFramesOnTheWire := by
  intro bytes s t ps hrx h ht p hp
  obtain ⟨d, qs, hfeed, rfl⟩ := receive_next h
  obtain rfl : qs = ps := by simpa using ht
  rw [hrx] at hfeed
  obtain ⟨-, hrecv⟩ := rxFeed_keeps_wf Deser.reset_wf hfeed
  obtain ⟨pre, -, post, hbytes, -⟩ := rxFeed_reset_emits hfeed hp
  obtain ⟨id, code, params, hcount, rfl⟩ := Packet.exists_bytes_of_receivable (hrecv p hp)
  rw [encodeFrame_of_bytes] at hbytes
  have hlen := lengthByte_toNat hcount
  exact ⟨pre, post, params, id, _, code, hbytes, hlen, by omega, rfl⟩

/-! ## Noise and stray header bytes before a frame -/

/-- Bytes without a header byte leave the reset state and emit nothing (R132). -/
theorem rxFeed_noise {z : List Byte} (hz : (0xFF : Byte) ∉ z) : rxFeed z Deser.reset = some (Deser.reset, []) := by
  induction z with
  | nil => rfl
  | cons b z ih =>
    rw [List.mem_cons, not_or] at hz
    obtain ⟨hb, hz⟩ := hz
    have hstep : rxStep b Deser.reset = some (Deser.reset, none) := by
      rw [rxStep_of_waitHeader1 b rfl, if_neg (Ne.symm hb)]
      rfl
    rw [rxFeed_cons_of_step hstep, ih hz]
    rfl

/-- A valid packet's frame after bytes that leave the reset state comes back after their packets (R150). -/
theorem rxFeed_append_encodeFrame {z : List Byte} {d : Deser} {ps : List Packet} {p : Packet} (hp : p.valid = true)
    (h : rxFeed z d = some (Deser.reset, ps)) :
    rxFeed (z ++ encodeFrame p) d = some (Deser.reset, ps ++ [p]) := by
  rw [rxFeed_append_of h, rxFeed_encodeFrame hp]
  rfl

/-- A reception that changes nothing but the outputs is a feed that returns to its state. -/
theorem rxFeed_of_exec_returns {bytes : List Byte} {s : State} {ps : List Packet}
    (h : exec (.rxFeed bytes) s = .next (s.record (.fed ps))) : rxFeed bytes s.rx = some (s.rx, ps) := by
  obtain ⟨d, qs, hfeed, heq⟩ := receive_next h
  have hd : s.rx = d := congrArg State.rx heq
  have hps : s.outputs ++ [Output.fed ps] = s.outputs ++ [Output.fed qs] := congrArg State.outputs heq
  obtain rfl : ps = qs := by simpa using hps
  rw [hfeed, ← hd]

/-- Settles O29: the frame meets the reset state. -/
theorem leadingNoiseIsIgnored : Obligations.LeadingNoiseIsIgnored := by
  intro z p s hp hrx
  refine ⟨encodeFrame p, exec_ser_of_valid hp s, fun ps hz => ?returns, fun hz => ?noHeaderByte⟩
  case returns =>
    have hfeed := rxFeed_of_exec_returns hz
    rw [hrx] at hfeed
    exact exec_rxFeed_of_feed_returns hrx (rxFeed_append_encodeFrame hp hfeed)
  case noHeaderByte =>
    exact exec_rxFeed_of_feed_returns hrx (rxFeed_append_encodeFrame hp (rxFeed_noise hz))

/-- Four header bytes are a header pair, an id and an illegal length byte (R272). -/
theorem rxFeed_replicate_fours (k : Nat) :
    rxFeed (List.replicate (4 * k) 0xFF) Deser.reset = some (Deser.reset, []) := by
  induction k with
  | zero => rfl
  | succ k ih =>
    have hfour : rxFeed (List.replicate 4 0xFF) Deser.reset = some (Deser.reset, []) := rfl
    rw [Nat.mul_succ, Nat.add_comm, List.replicate_add, rxFeed_append_of hfour, ih]
    rfl

/-- `n` header bytes leave the reset state exactly when their number is a multiple of 4 (R272). -/
theorem rxFeed_replicate_returns_iff (n : Nat) :
    (∃ ps, rxFeed (List.replicate n 0xFF) Deser.reset = some (Deser.reset, ps)) ↔ n % 4 = 0 := by
  have hsplit : rxFeed (List.replicate n 0xFF) Deser.reset =
      (rxFeed (List.replicate (n % 4) 0xFF) Deser.reset).map fun r => (r.1, [] ++ r.2) := by
    rw [← rxFeed_append_of (rxFeed_replicate_fours (n / 4)), ← List.replicate_add, Nat.div_add_mod]
  rw [hsplit]
  have hlt : n % 4 < 4 := Nat.mod_lt n (by decide)
  generalize n % 4 = r at hlt
  interval_cases r
  · exact ⟨fun _ => rfl, fun _ => ⟨[], rfl⟩⟩
  · exact ⟨fun ⟨_, h⟩ => (nomatch h), nofun⟩
  · exact ⟨fun ⟨_, h⟩ => (nomatch h), nofun⟩
  · exact ⟨fun ⟨_, h⟩ => (nomatch h), nofun⟩

/-- The id byte of a valid packet's frame is no header byte (R84). -/
theorem encodeFrame_id_ne_header {p : Packet} (hp : p.valid = true) : (encodeFrame p)[2]? ≠ some 0xFF := by
  obtain ⟨hid0, hid, -⟩ := (Packet.valid_iff p).1 hp
  have hbyte : byteInt (toByte p.servoId) = p.servoId := byteInt_toByte_of_isByte ((isByte_iff _).2 ⟨hid0, by omega⟩)
  intro h
  have hid' : toByte p.servoId = 0xFF := Option.some.inj h
  rw [hid'] at hbyte
  simp [byteInt] at hbyte
  omega

/-- After stray header bytes a valid packet's frame stands nowhere but at its own place: further to the front its id would
be a header byte. -/
theorem eq_replicate_of_append_encodeFrame {n : Nat} {p : Packet} {pre post : List Byte} (hp : p.valid = true)
    (h : List.replicate n 0xFF ++ encodeFrame p = pre ++ encodeFrame p ++ post) : pre = List.replicate n 0xFF := by
  have hlen := congrArg List.length h
  simp only [List.length_append, List.length_replicate] at hlen
  have hge : n ≤ pre.length := by
    by_contra hlt
    have hhere : (pre ++ encodeFrame p ++ post)[pre.length + 2]? = (encodeFrame p)[2]? := by
      rw [List.append_assoc, List.getElem?_append_right (by omega), Nat.add_sub_cancel_left]
      rfl
    have hpair : encodeFrame p = List.replicate 2 0xFF ++ (coveredOf p ++ [checksum (coveredOf p)]) := rfl
    have hheader : (List.replicate n 0xFF ++ encodeFrame p)[pre.length + 2]? = some 0xFF := by
      rw [hpair, ← List.append_assoc, ← List.replicate_add,
        List.getElem?_append_left (by rw [List.length_replicate]; omega), List.getElem?_replicate, if_pos (by omega)]
    rw [h, hhere] at hheader
    exact encodeFrame_id_ne_header hp hheader
  rw [List.append_assoc] at h
  exact (List.append_inj_left h (by rw [List.length_replicate]; omega)).symm

/-- Settles O30: a packet returned after a number of stray header bytes that is no multiple of 4 is not `p`, whose frame
would have to begin in the reset state. -/
theorem strayHeaderBytesLoseTheFrameUnlessInFours : Obligations.StrayHeaderBytesLoseTheFrameUnlessInFours := by
  intro n p s hp hrx
  obtain ⟨d, ps, hfeed, -⟩ := rxFeed_some_of_wf (List.replicate n 0xFF ++ encodeFrame p) Deser.reset_wf
  have hexec : exec (.rxFeed (List.replicate n 0xFF ++ encodeFrame p)) s = .next ((s.withRx d).record (.fed ps)) :=
    receive_of_feed (by rw [hrx]; exact hfeed)
  refine ⟨encodeFrame p, d, ps, exec_ser_of_valid hp s, hexec, fun hn => ?fours, fun hn hmem => hn ?lost⟩
  case fours =>
    obtain ⟨k, rfl⟩ := Nat.dvd_of_mod_eq_zero hn
    rw [rxFeed_append_encodeFrame hp (rxFeed_replicate_fours k)] at hfeed
    cases hfeed
    exact ⟨rfl, hrx.symm⟩
  case lost =>
    obtain ⟨pre, qs, post, hbytes, hpre⟩ := rxFeed_reset_emits hfeed hmem
    rw [eq_replicate_of_append_encodeFrame hp hbytes] at hpre
    exact (rxFeed_replicate_returns_iff n).1 ⟨qs, hpre⟩

end Sys2Proof.Machine
end

section
/-! How long a frame lasts (41_deserializer.md section 6, 60_exceptions.md section 6): the bytes that a legal length byte
consumes, and the bound on the way back to the reset state. -/

namespace Sys2Proof.Machine

/-- How many more bytes can arrive, at most, before the deserializer has been in the reset state again after one of them:
in the states after the length byte the bytes of the frame that are still to come, before it the worst case. -/
def Deser.due (d : Deser) : Nat :=
  match d.st with
  | .waitHeader1 => 68
  | .waitHeader2 => 67
  | .waitId => 66
  | .waitLength => 65
  | .waitPayload => d.rem.val + 1
  | .waitChecksum => 1

/-- The deserializer is past the length byte of a frame. -/
def Deser.pastLength (d : Deser) : Prop :=
  d.st = .waitPayload ∨ d.st = .waitChecksum

theorem Deser.due_of_waitPayload {d : Deser} (h : d.st = .waitPayload) : d.due = d.rem.val + 1 := by
  simp [Deser.due, h]

theorem Deser.due_of_waitChecksum {d : Deser} (h : d.st = .waitChecksum) : d.due = 1 := by
  simp [Deser.due, h]

theorem Deser.due_pos (d : Deser) : 1 ≤ d.due := by
  unfold Deser.due
  split <;> omega

theorem Deser.due_le (d : Deser) : d.due ≤ 68 := by
  have := d.rem.isLt
  unfold Deser.due
  split <;> omega

theorem Deser.pastLength.ne_waitHeader1 {d : Deser} (h : d.pastLength) : d.st ≠ .waitHeader1 := by
  rcases h with h | h <;> rw [h] <;> simp

/-- Past the length byte each byte but the last is one of the payload, whatever it is (R136, R273). -/
theorem rxStep_inside_frame {b : Byte} {d d' : Deser} {o : Option Packet} (hd : d.pastLength) (hdue : 1 < d.due)
    (hw : d.wf = true) (h : rxStep b d = some (d', o)) : d'.pastLength ∧ d'.due + 1 = d.due ∧ o = none := by
  rcases hd with hst | hst
  case inr => exact absurd hdue (by rw [Deser.due_of_waitChecksum hst]; omega)
  obtain ⟨-, -, -, -, -, -, hrem, -⟩ := Deser.waitPayload_shape hw hst
  have hlt := d.rem.isLt
  rw [rxStep_of_waitPayload b (r := ⟨d.rem.val - 1, by omega⟩) hst (by simp only; omega)] at h
  cases h
  rw [Deser.due_of_waitPayload hst]
  by_cases hr : d.rem.val - 1 = 0
  · rw [if_pos hr]
    exact ⟨.inr rfl, by rw [Deser.due_of_waitChecksum rfl]; omega, rfl⟩
  · rw [if_neg hr]
    exact ⟨.inl rfl, by rw [Deser.due_of_waitPayload rfl]; simp only; omega, rfl⟩

/-- Past the length byte the last byte is the checksum byte, and ends the frame whatever it is (R137, R273). -/
theorem rxStep_ends_frame {b : Byte} {d d' : Deser} {o : Option Packet} (hd : d.pastLength) (hdue : d.due = 1)
    (hw : d.wf = true) (h : rxStep b d = some (d', o)) : d' = Deser.reset := by
  rcases hd with hst | hst
  · obtain ⟨-, -, -, -, -, -, hrem, -⟩ := Deser.waitPayload_shape hw hst
    rw [Deser.due_of_waitPayload hst] at hdue
    omega
  · obtain ⟨id, len, code, params, rfl, h1, h2, hp⟩ := Deser.waitChecksum_shape hw hst
    rw [rxStep_of_waitChecksum b ((legalLength_iff len).2 ⟨h1, h2⟩) hp] at h
    exact (Prod.mk.inj (Option.some.inj h)).1.symm

/-- Fewer bytes than are due leave the deserializer past the length byte and emit nothing. -/
theorem rxFeed_inside_frame {bs : List Byte} {d : Deser} (hd : d.pastLength) (hlt : bs.length < d.due)
    (hw : d.wf = true) : ∃ d', rxFeed bs d = some (d', []) ∧ d'.pastLength ∧ d'.wf = true ∧
      d'.due + bs.length = d.due := by
  induction bs generalizing d with
  | nil => exact ⟨d, rfl, hd, hw, rfl⟩
  | cons b bs ih =>
    rw [List.length_cons] at hlt ⊢
    obtain ⟨d', o, hstep⟩ := rxStep_some_of_wf b hw
    obtain ⟨hd', hdue, rfl⟩ := rxStep_inside_frame hd (by omega) hw hstep
    obtain ⟨e, hfeed, he, hwe, hdue'⟩ := ih hd' (by omega) (rxStep_keeps_wf hw hstep).1
    refine ⟨e, ?_, he, hwe, by omega⟩
    rw [rxFeed_cons_of_step hstep, hfeed]
    rfl

/-- The bytes that are due, whatever they are, end in the reset state. -/
theorem rxFeed_ends_frame {bs : List Byte} {d : Deser} (hd : d.pastLength) (hlen : bs.length = d.due)
    (hw : d.wf = true) : ∃ ps, rxFeed bs d = some (Deser.reset, ps) := by
  have hpos := d.due_pos
  obtain ⟨init, b, rfl⟩ : ∃ init b, bs = init ++ [b] := by
    refine ⟨_, _, (List.dropLast_append_getLast (l := bs) ?_).symm⟩
    rintro rfl
    simp at hlen
    omega
  rw [List.length_append, List.length_singleton] at hlen
  obtain ⟨e, hfeed, he, hwe, hdue⟩ := rxFeed_inside_frame hd (bs := init) (by omega) hw
  obtain ⟨d', o, hstep⟩ := rxStep_some_of_wf b hwe
  obtain rfl := rxStep_ends_frame he (by omega) hwe hstep
  exact ⟨_, by rw [rxFeed_append_of hfeed, rxFeed_cons_of_step hstep]; rfl⟩

/-- Settles O31: after its length byte `L` the frame has `L` bytes due. -/
theorem aFrameConsumesExactlyItsLength : Obligations.AFrameConsumesExactlyItsLength := by
  intro id len body s hrx hl1 hl2 hbody
  have hl := (legalLength_iff len).2 ⟨hl1, hl2⟩
  have hlt : len.toNat - 1 < 64 := by omega
  have hhead := rxFeed_frame_head (id := id) (r := ⟨len.toNat - 1, hlt⟩) hl (by simp only; omega)
  generalize hd : Deser.mk .waitPayload [id, len] ⟨len.toNat - 1, hlt⟩ = d at hhead
  have hpast : d.pastLength := by rw [← hd]; exact .inl rfl
  have hdue : d.due = len.toNat := by rw [← hd, Deser.due_of_waitPayload rfl]; simp only; omega
  obtain ⟨hw, -⟩ := rxFeed_keeps_wf Deser.reset_wf hhead
  refine ⟨fun k hk => ?inside, ?whole⟩
  case inside =>
    have hlen : (body.take k).length < d.due := by rw [List.length_take]; omega
    obtain ⟨e, hfeed, he, -, -⟩ := rxFeed_inside_frame hpast hlen hw
    refine ⟨e, he.ne_waitHeader1, receive_of_feed ?_⟩
    rw [hrx]
    exact (rxFeed_append_of hhead).trans (by rw [hfeed]; rfl)
  case whole =>
    obtain ⟨ps, hfeed⟩ := rxFeed_ends_frame hpast (hbody.trans hdue.symm) hw
    exact ⟨ps, exec_rxFeed_of_feed_returns hrx ((rxFeed_append_of hhead).trans (by rw [hfeed]; rfl))⟩

/-- Every byte brings the deserializer into the reset state or at least one byte nearer to it (R138, R244). -/
theorem rxStep_due {b : Byte} {d d' : Deser} {o : Option Packet} (hw : d.wf = true)
    (h : rxStep b d = some (d', o)) : d' = Deser.reset ∨ d'.due + 1 ≤ d.due := by
  rcases rxStep_cases h with
    ⟨hst, -, rfl, -⟩ | ⟨hst, -, rfl, -⟩ | ⟨hst, -, rfl, -⟩ | ⟨-, -, hd, -⟩ | ⟨hst, rfl, -⟩ |
    ⟨hst, -, hlen, hst', -, hrem, -⟩ | ⟨-, -, hd, -⟩ | ⟨hst, hpos, hst', -, hrem, -⟩ | ⟨-, -, hd, -⟩ |
    ⟨-, -, -, hd, -⟩ | ⟨-, -, -, hd, -⟩
  · exact .inr (by simp [Deser.due, hst])
  · exact .inl (Deser.eq_reset_of_wf hw hst)
  · exact .inr (by simp [Deser.due, hst])
  · exact .inl hd
  · exact .inr (by simp [Deser.due, hst])
  · refine .inr ?_
    rw [Deser.due_of_waitPayload hst']
    simp only [Deser.due, hst]
    omega
  · exact .inl hd
  · refine .inr ?_
    rw [Deser.due_of_waitPayload hst]
    split at hst'
    · rw [Deser.due_of_waitChecksum hst']
      omega
    · rw [Deser.due_of_waitPayload hst']
      omega
  · exact .inl hd
  · exact .inl hd
  · exact .inl hd

/-- As many bytes as are due at most, whatever they are, pass through the reset state. -/
theorem rxFeed_passes_reset {bs : List Byte} {d : Deser} (hw : d.wf = true) (hlen : d.due ≤ bs.length) :
    ∃ k, 1 ≤ k ∧ k ≤ d.due ∧ ∃ ps, rxFeed (bs.take k) d = some (Deser.reset, ps) := by
  induction bs generalizing d with
  | nil => exact absurd d.due_pos (by rw [List.length_nil] at hlen; omega)
  | cons b bs ih =>
    obtain ⟨d', o, hstep⟩ := rxStep_some_of_wf b hw
    rcases rxStep_due hw hstep with rfl | hdue
    · exact ⟨1, le_rfl, d.due_pos, _, rxFeed_cons_of_step hstep⟩
    · rw [List.length_cons] at hlen
      obtain ⟨k, hk1, hk, ps, hfeed⟩ := ih (rxStep_keeps_wf hw hstep).1 (by omega)
      refine ⟨k + 1, by omega, by omega, o.toList ++ ps, ?_⟩
      rw [List.take_succ_cons, rxFeed_cons_of_step hstep, hfeed]
      rfl

/-- Settles O32: never more than 68 bytes are due. -/
theorem backInResetWithinSixtyEightBytes : Obligations.BackInResetWithinSixtyEightBytes := by
  intro bytes s hw hlen
  have hle := s.rx.due_le
  obtain ⟨k, hk1, hk, ps, hfeed⟩ := rxFeed_passes_reset (bs := bytes) hw (by omega)
  exact ⟨k, hk1, by omega, ps, receive_of_feed hfeed⟩

end Sys2Proof.Machine
end

section
/-! The forms of the checksum and what it detects (40_checksum.md). -/

namespace Sys2Proof.Machine

/-- The running 8-bit sum is the exact sum kept to eight bits (R121, R126). -/
theorem runningSum_eq (s : List Byte) : runningSum s = BitVec.ofNat 8 (byteSum s) := by
  have hfold : ∀ (s : List Byte) (acc : Byte),
      s.foldl (fun acc b => acc + b) acc = acc + BitVec.ofNat 8 (byteSum s) := by
    intro s
    induction s with
    | nil => simp
    | cons b bs ih =>
      intro acc
      rw [List.foldl_cons, ih, byteSum_cons, BitVec.ofNat_add, BitVec.ofNat_toNat, BitVec.setWidth_eq, BitVec.add_assoc]
  rw [runningSum, hfold, zero_add]

/-- The checksum is the complement of the sum kept to eight bits (R120, R121). -/
theorem checksum_eq_not (s : List Byte) : checksum s = ~~~BitVec.ofNat 8 (byteSum s) := by
  apply BitVec.eq_of_toNat_eq
  rw [checksum_toNat, BitVec.toNat_not, BitVec.toNat_ofNat]

/-- Sequences with the same sum modulo 256, and no others, have the same checksum. -/
theorem checksum_eq_iff (s t : List Byte) : checksum s = checksum t ↔ byteSum s % 256 = byteSum t % 256 := by
  rw [← BitVec.toNat_inj, checksum_toNat, checksum_toNat]
  omega

/-- The sum does not depend on the order of the bytes. -/
theorem byteSum_perm {s t : List Byte} (h : s.Perm t) : byteSum s = byteSum t := by
  rw [byteSum_eq_sum, byteSum_eq_sum, (h.map _).sum_eq]

/-- Settles O36: both other forms are the complement of the truncated sum. -/
theorem checksumFormsAgree : Obligations.ChecksumFormsAgree := by
  refine ⟨fun s => ⟨?running, ?xor⟩, fun s t h => ?order⟩
  case running =>
    rw [checksum_eq_not, runningSum_eq, ← BitVec.allOnes_sub_eq_not]
    rfl
  case xor =>
    rw [checksum_eq_not, byteSum_eq_sum, ← BitVec.xor_allOnes]
    rfl
  case order => rw [checksum_eq_iff, byteSum_perm h]

/-- R124: a byte verifies exactly when it completes the sum to 255 modulo 256. -/
theorem verifies_iff_sum (covered : List Byte) (c : Byte) :
    verifies covered c = true ↔ (byteSum covered + c.toNat) % 256 = 255 := by
  have hc := c.isLt
  rw [verifies_iff, ← BitVec.toNat_inj, checksum_toNat]
  omega

/-- R125 (b): the sum modulo 256 moves with every single byte. -/
theorem checksum_ne_of_changed_byte (l r : List Byte) {x y : Byte} (h : x ≠ y) :
    checksum (l ++ x :: r) ≠ checksum (l ++ y :: r) := by
  have hx := x.isLt
  have hy := y.isLt
  have hxy : x.toNat ≠ y.toNat := mt BitVec.eq_of_toNat_eq h
  rw [Ne, checksum_eq_iff]
  simp only [byteSum_append, byteSum_cons]
  omega

/-- Settles O37. -/
theorem checksumDetectsOneChangedByte : Obligations.ChecksumDetectsOneChangedByte := by
  refine ⟨fun covered c => ?sum, fun covered => ?unique, fun l r x y => checksum_ne_of_changed_byte l r⟩
  case sum => rw [verifies_iff_sum, byteSum_eq_sum]
  case unique =>
    exact ⟨checksum covered, (verifies_iff _ _).2 rfl, fun c' h => (verifies_iff _ _).1 h⟩

end Sys2Proof.Machine
end

section
/-! The serializer's checks and the shape of its frames (42_serializer.md). -/

namespace Sys2Proof.Machine

/-! ## The first failing check -/

/-- SER reports what the checks report (R164). -/
theorem exec_ser_of_error {p : Packet} {e : ErrKind} (h : validate p = .error e) (s : State) :
    exec (.ser p) s = .next (s.record (.error e)) := by
  rw [exec_of_isPure rfl, pureOutput, (serialize_error_iff p e).2 h]
  rfl

/-- R161 check 1. -/
theorem validate_servoId {p : Packet} (h : p.servoId < 0 ∨ 254 < p.servoId) :
    validate p = .error (.servoId p.servoId) :=
  if_pos h

/-- An id of 0..254 passes check 1. -/
theorem servoId_check_passes {id : Int} (hid : 0 ≤ id ∧ id ≤ 254) : ¬(id < 0 ∨ (Config.txIdMax : Int) < id) := by
  simp only [Config.txIdMax]
  omega

/-- R161 check 2, the id having passed. -/
theorem validate_instruction {p : Packet} (hid : 0 ≤ p.servoId ∧ p.servoId ≤ 254)
    (h : isByte p.instruction = false) : validate p = .error (.instruction p.instruction) := by
  rw [validate, if_neg (servoId_check_passes hid), if_pos h]

/-- R161 check 3, id and code having passed. -/
theorem validate_paramCount {p : Packet} (hid : 0 ≤ p.servoId ∧ p.servoId ≤ 254)
    (hcode : isByte p.instruction = true) (h : 60 < p.params.length) :
    validate p = .error (.paramCount p.params.length) := by
  rw [validate, if_neg (servoId_check_passes hid), if_neg (by simp [hcode]), if_pos h]

/-- R161 check 4, id, code and count having passed. -/
theorem validate_paramValue {p : Packet} {k : Nat} (hid : 0 ≤ p.servoId ∧ p.servoId ≤ 254)
    (hcode : isByte p.instruction = true) (hcount : p.params.length ≤ 60) (h : badParam? p.params = some k) :
    validate p = .error (.paramValue k) := by
  rw [validate, if_neg (servoId_check_passes hid), if_neg (by simp [hcode]), if_neg (Nat.not_lt.2 hcount), h]

/-- The least failing index is the number of bytes before the first value that is none (R162). -/
theorem badParam?_append_cons {l r : List Int} {v : Int} (hl : ∀ u ∈ l, isByte u = true) (hv : isByte v = false) :
    badParam? (l ++ v :: r) = some l.length := by
  have hnone : l.findIdx? (fun u => !isByte u) = none := by
    rw [List.findIdx?_eq_none_iff]
    intro u hu
    rw [hl u hu]
    rfl
  simp [badParam?, List.findIdx?_append, hnone, List.findIdx?_cons, hv]

theorem isByte_eq_false_iff (v : Int) : isByte v = false ↔ v < 0 ∨ 255 < v := by
  rw [← Bool.not_eq_true, isByte_iff]
  omega

/-- Settles O39, one clause per check. -/
theorem serReportsTheFirstFailingCheck : Obligations.SerReportsTheFirstFailingCheck := by
  refine fun p s => ⟨fun h => ?id, fun h0 h1 h => ?code, fun h0 h1 h2 h3 h => ?count,
    fun h0 h1 h2 h3 h4 l r v hps hl hv => ?value⟩
  case id => exact exec_ser_of_error (validate_servoId h) s
  case code => exact exec_ser_of_error (validate_instruction ⟨h0, h1⟩ ((isByte_eq_false_iff _).2 h)) s
  case count => exact exec_ser_of_error (validate_paramCount ⟨h0, h1⟩ ((isByte_iff _).2 ⟨h2, h3⟩) h) s
  case value =>
    have hbad := badParam?_append_cons (r := r) (fun u hu => (isByte_iff u).2 (hl u hu)) ((isByte_eq_false_iff v).2 hv)
    rw [← hps] at hbad
    exact exec_ser_of_error (validate_paramValue ⟨h0, h1⟩ ((isByte_iff _).2 ⟨h2, h3⟩) h4 hbad) s

/-- What SER's checks can report has a code of 1 to 4 (R165). -/
theorem validate_error_code {p : Packet} {e : ErrKind} (h : validate p = .error e) :
    1 ≤ e.code.toNat ∧ e.code.toNat ≤ 4 := by
  rcases validate_error_cases h with rfl | rfl | rfl | ⟨i, -, rfl⟩ <;> simp [ErrKind.code]

/-- Settles O40: the checks pass exactly for the valid packets, and what they report has a code of 1 to 4. -/
theorem serAcceptsExactlyTheValidPackets : Obligations.SerAcceptsExactlyTheValidPackets := by
  intro p s
  cases hv : validate p with
  | ok _ =>
    have hp : p.valid = true := (validate_eq_ok_iff p).1 hv
    exact ⟨_, exec_ser_of_valid hp s, fun _ => ⟨_, rfl⟩, fun h => by rw [hp] at h; cases h⟩
  | error e =>
    refine ⟨_, exec_ser_of_error hv s, fun h => ?_, fun _ => ⟨e, rfl, validate_error_code hv⟩⟩
    rw [(validate_eq_ok_iff p).2 h] at hv
    cases hv

/-! ## The frames -/

/-- A frame that SER outputs is the frame of a valid packet. -/
theorem valid_of_exec_ser_frame {p : Packet} {bytes : List Byte} {s : State}
    (h : exec (.ser p) s = .next (s.record (.frame bytes))) : p.valid = true ∧ bytes = encodeFrame p := by
  rw [exec_of_isPure rfl, pureOutput, Host.Outcome.next.injEq] at h
  have hout : s.outputs ++ [Output.ofResult ((serialize p).map .frame)] = s.outputs ++ [.frame bytes] :=
    congrArg State.outputs h
  cases hser : serialize p with
  | error e => simp [hser, Except.map] at hout
  | ok bs =>
    obtain rfl : bs = bytes := by simpa [hser, Except.map] using hout
    exact (serialize_ok_iff p bs).1 hser

/-- The length byte of a valid packet's frame (R82). -/
theorem toByte_frameLen_toNat {p : Packet} (hp : p.valid = true) :
    (toByte (frameLen p)).toNat = p.params.length + 2 := by
  obtain ⟨-, -, -, hcount, -⟩ := (Packet.valid_iff p).1 hp
  rw [toByte_natCast, frameLen, lengthByte_toNat (by omega)]

/-- Settles O41: the frame is `encodeFrame p`, whose bytes between header and checksum are those the checksum covers. -/
theorem serFramesHaveTheFrameShape : Obligations.SerFramesHaveTheFrameShape := by
  intro p bytes s h
  obtain ⟨hp, rfl⟩ := valid_of_exec_ser_frame h
  obtain ⟨-, -, -, hcount, -⟩ := (Packet.valid_iff p).1 hp
  have hlen := toByte_frameLen_toNat hp
  have hrest : (toByte p.instruction :: p.params.map toByte).length + 1 = (toByte (frameLen p)).toNat := by
    rw [hlen, List.length_cons, List.length_map]
  refine ⟨length_encodeFrame p, by rw [length_encodeFrame]; omega, by rw [length_encodeFrame]; omega,
    toByte p.servoId, toByte (frameLen p), toByte p.instruction :: p.params.map toByte, checksum (coveredOf p), rfl,
    by omega, by omega, hrest, (verifies_iff _ _).2 rfl⟩

/-- Settles O42: the deserializer reads each valid packet back from its frame (R145). -/
theorem serIsInjective : Obligations.SerIsInjective := by
  intro p q bytes s hp hq
  obtain ⟨hvp, rfl⟩ := valid_of_exec_ser_frame hp
  obtain ⟨hvq, heq⟩ := valid_of_exec_ser_frame hq
  have hback := rxFeed_encodeFrame hvp
  rw [heq, rxFeed_encodeFrame hvq] at hback
  cases hback
  rfl

end Sys2Proof.Machine
end

section
/-! The value decoder's volts, and the laws of the sign-magnitude reading (44_value_decoder.md sections 2 and 3). -/

namespace Sys2Proof.Machine

/-- R215: the exact volts. -/
theorem voltageResult_singleton (b : Byte) : voltageResult [b] = .ok (.volts (mkRat b.toNat Config.voltDiv)) := rfl

/-- R210, for the voltage decoder. -/
theorem voltageResult_of_length {ps : List Byte} (h : ps.length ≠ 1) :
    voltageResult ps = .error (.lengthMismatch 1 ps.length) := by
  rw [voltageResult, decodeU8_of_length h]
  rfl

/-- Settles O52. -/
theorem voltageIsTheExactTenth : Obligations.VoltageIsTheExactTenth := by
  intro params s
  refine ⟨fun b hb => ⟨mkRat b.toNat Config.voltDiv, mkRat_voltDiv_mul b.toNat, ?volts⟩, fun h => ?mismatch⟩
  case volts => rw [hb, exec_of_isPure rfl, pureOutput, voltageResult_singleton]; rfl
  case mismatch => rw [exec_of_isPure rfl, pureOutput, voltageResult_of_length h]; rfl

/-- R213 by sign and magnitude: bit 15 is the sign, the low 15 bits are the magnitude. -/
theorem smag16_eq_sign_magnitude (raw : BitVec 16) :
    smag16 raw = if raw.getLsbD 15 then -((raw.toNat % 32768 : Nat) : Int) else ((raw.toNat % 32768 : Nat) : Int) := by
  have hlt := raw.isLt
  have hsign : raw.getLsbD 15 = decide (32768 ≤ raw.toNat) := by
    rw [← BitVec.msb_eq_getLsbD_last, BitVec.msb_eq_decide]
  rw [smag16_eq, hsign]
  simp only [decide_eq_true_eq]
  split <;> omega

/-- Flipping the sign bit negates the reading (R214). -/
theorem smag16_xor_sign (raw : BitVec 16) : smag16 (raw ^^^ 0x8000) = -smag16 raw := by
  have hmag : (raw ^^^ 0x8000).toNat % 32768 = raw.toNat % 32768 := by
    rw [BitVec.toNat_xor]
    exact (Nat.xor_mod_two_pow (n := 15)).trans (Nat.xor_zero _)
  have hsign : (raw ^^^ 0x8000).getLsbD 15 = !raw.getLsbD 15 := by
    rw [BitVec.getLsbD_xor]
    exact Bool.xor_true _
  rw [smag16_eq_sign_magnitude, smag16_eq_sign_magnitude, hmag, hsign]
  cases raw.getLsbD 15 <;> simp

/-- Settles O53, by arithmetic on the unsigned value. -/
theorem signMagnitudeLaws : Obligations.SignMagnitudeLaws := by
  intro raw
  have hlt := raw.isLt
  have hint : raw.toInt = if 2 * raw.toNat < 65536 then (raw.toNat : Int) else (raw.toNat : Int) - 65536 :=
    BitVec.toInt_eq_toNat_cond raw
  have hne : raw ≠ 0xC000 → raw.toNat ≠ 49152 := mt fun h => BitVec.eq_of_toNat_eq h
  refine ⟨?lower, ?upper, smag16_xor_sign raw, fun h => ⟨?twosComplement, ?plain⟩, fun h hraw => ?differs⟩
  case lower => rw [smag16_eq]; split <;> omega
  case upper => rw [smag16_eq]; split <;> omega
  case plain => rw [smag16_eq, if_neg (by omega)]
  case twosComplement => rw [smag16_eq, if_neg (by omega), hint, if_pos (by omega)]
  case differs =>
    have hnat := hne hraw
    rw [smag16_eq, if_pos h, hint, if_neg (by omega)]
    omega

end Sys2Proof.Machine
end

section
/-! The command encoder (43_command_encoder.md): the packets of the motion commands, the typed reads and the three builders
of general knowledge, and what SER and the decoder make of them. -/

namespace Sys2Proof.Machine

/-! ## The packets -/

/-- R91, R189, R190: the motion packet's fields. -/
theorem motionPacket_eq (id pos speed acc : Int) :
    writePacket id (regParam .acceleration) (motionData pos speed acc) =
      { servoId := id, instruction := 3,
        params := [((Config.regAddr .acceleration).toNat : Int), acc % 256, pos % 256, pos / 256 % 256, 0, 0,
          speed % 256, speed / 256 % 256] } := rfl

/-- R189, a position in range. -/
theorem movePacket_of_inRange {pos : Int} (id speed acc : Int) (h0 : 0 ≤ pos) (h1 : pos ≤ 4095) :
    movePacket id pos speed acc = .ok (writePacket id (regParam .acceleration) (motionData pos speed acc)) := by
  rw [movePacket_eq, if_neg (by omega)]

/-- R189, R239 (b): a position out of range. -/
theorem movePacket_of_outOfRange {pos : Int} (id speed acc : Int) (h : pos < 0 ∨ 4095 < pos) :
    movePacket id pos speed acc = .error (.positionRange pos) := by
  rw [movePacket_eq, if_pos h]

/-- CB.MOVE in range outputs the motion packet (R189). -/
theorem exec_cbMove_of_inRange {pos : Int} (id speed acc : Int) (s : State) (h0 : 0 ≤ pos) (h1 : pos ≤ 4095) :
    exec (.cbMove id pos speed acc) s =
      .next (s.record (.packet (writePacket id (regParam .acceleration) (motionData pos speed acc)))) := by
  rw [exec_of_isPure rfl, pureOutput, movePacket_of_inRange id speed acc h0 h1]
  rfl

/-- Settles O44: of a position below 4096 the high byte is the whole quotient. -/
theorem cbMoveBuildsOrRefusesThePosition : Obligations.CbMoveBuildsOrRefusesThePosition := by
  refine fun id pos speed acc s => ⟨fun h0 h1 => ?builds, fun h => ?refuses⟩
  case builds =>
    have hhigh : pos / 256 % 256 = pos / 256 := by omega
    rw [exec_cbMove_of_inRange id speed acc s h0 h1, motionPacket_eq, hhigh]
    rfl
  case refuses =>
    rw [exec_of_isPure rfl, pureOutput, movePacket_of_outOfRange id speed acc h]
    rfl

/-- CB.ROTATE outputs the motion packet with position 0 (R190). -/
theorem exec_cbRotate (id speed acc : Int) (s : State) :
    exec (.cbRotate id speed acc) s =
      .next (s.record (.packet (writePacket id (regParam .acceleration) (motionData 0 speed acc)))) := rfl

/-- Settles O45: both are the motion packet with position 0, which is in range. -/
theorem cbRotateIsMoveWithZeroPosition : Obligations.CbRotateIsMoveWithZeroPosition := by
  refine fun id speed acc s => ⟨?layout, ?move⟩
  case layout => rw [exec_cbRotate, motionPacket_eq]; rfl
  case move => rw [exec_cbRotate, exec_cbMove_of_inRange id speed acc s le_rfl (by decide)]

/-- Settles O46: each typed read is CB.READ at its register, by the map's entry (R191 to R196). -/
theorem typedReadsAreReadsOfTheirRegister : Obligations.TypedReadsAreReadsOfTheirRegister := by
  intro id s q hmem
  simp only [List.mem_cons, List.not_mem_nil, or_false] at hmem
  obtain rfl | rfl | rfl | rfl | rfl | rfl := hmem <;> exact ⟨rfl, rfl⟩

/-- Settles O47: each operation is pure and records its packet. -/
theorem pingRegwriteActionBuildTheirPackets : Obligations.PingRegwriteActionBuildTheirPackets := by
  intro id addr data s
  exact ⟨exec_of_isPure (i := .cbPing id) rfl s, exec_of_isPure (i := .cbRegwrite id addr data) rfl s,
    exec_of_isPure (i := .cbAction id) rfl s⟩

/-! ## Which of them serialize -/

theorem isByte_lowByte (v : Int) : isByte (lowByte v) = true := by
  rw [isByte_iff, lowByte]
  omega

theorem isByte_highByte (v : Int) : isByte (highByte v) = true := by
  rw [isByte_iff, highByte]
  omega

/-- Truncation makes every data element of a motion command a byte (R96, R201). -/
theorem all_isByte_motionData (pos speed acc : Int) : (motionData pos speed acc).all isByte = true := by
  have hzero : isByte 0 = true := rfl
  simp only [motionData, List.all_cons, List.all_nil, isByte_lowByte, isByte_highByte, hzero, Bool.and_self]

/-- R200: a write with byte operands and at most 59 data bytes is valid. -/
theorem writePacket_valid {id addr : Int} {data : List Int} (hid : 0 ≤ id ∧ id ≤ 254) (haddr : isByte addr = true)
    (hcount : data.length ≤ 59) (hdata : data.all isByte = true) : (writePacket id addr data).valid = true := by
  have hcount' : (addr :: data).length ≤ 60 := Nat.succ_le_succ hcount
  have hall : (addr :: data).all isByte = true := by rw [List.all_cons, haddr, hdata, Bool.and_self]
  exact (Packet.valid_iff _).2 ⟨hid.1, hid.2, isByte_byteInt _, hcount', hall⟩

/-- R200: a read with byte operands is valid. -/
theorem readPacket_valid {id addr size : Int} (hid : 0 ≤ id ∧ id ≤ 254) (haddr : isByte addr = true)
    (hsize : isByte size = true) : (readPacket id addr size).valid = true := by
  have hall : [addr, size].all isByte = true := by
    simp only [List.all_cons, List.all_nil, haddr, hsize, Bool.and_self]
  exact (Packet.valid_iff _).2 ⟨hid.1, hid.2, isByte_byteInt _, Nat.le_of_ble_eq_true rfl, hall⟩

/-- SER of a valid packet outputs `len(params) + 6` bytes (R88). -/
theorem exec_ser_length_of_valid {p : Packet} (h : p.valid = true) (s : State) :
    ∃ bytes, exec (.ser p) s = .next (s.record (.frame bytes)) ∧ bytes.length = p.params.length + 6 :=
  ⟨encodeFrame p, exec_ser_of_valid h s, length_encodeFrame p⟩

/-- The motion packets are valid whatever the register's address is (R200). -/
theorem motionPacket_valid {id : Int} (hid : 0 ≤ id ∧ id ≤ 254) (pos speed acc : Int) :
    (writePacket id (regParam .acceleration) (motionData pos speed acc)).valid = true :=
  writePacket_valid hid (isByte_byteInt _) (Nat.le_of_ble_eq_true rfl) (all_isByte_motionData pos speed acc)

/-- The typed reads output the read packet of some register (R191 to R196). -/
theorem exec_typedRead {id : Int} {i : Instr}
    (hmem : i ∈ [Instr.cbRdPosition id, .cbRdSpeed id, .cbRdTemperature id, .cbRdVoltage id, .cbRdLoad id,
      .cbRdCurrent id]) :
    ∃ r, ∀ s, exec i s = .next (s.record (.packet (typedReadPacket r id))) := by
  simp only [List.mem_cons, List.not_mem_nil, or_false] at hmem
  obtain rfl | rfl | rfl | rfl | rfl | rfl := hmem <;> exact ⟨_, fun _ => rfl⟩

/-- Every register's width is a byte (R182). -/
theorem isByte_width (r : RegName) : isByte ((Config.regMap r).width : Int) = true := by
  cases r <;> rfl

/-- The packets of the typed reads are valid whatever the register's address is (R200). -/
theorem typedReadPacket_valid {id : Int} (hid : 0 ≤ id ∧ id ≤ 254) (r : RegName) :
    (typedReadPacket r id).valid = true :=
  readPacket_valid hid (isByte_byteInt _) (isByte_width r)

/-- Settles O48: the built packets are valid, but for the parameter count of a long write and for the id 255. -/
theorem builtCommandsSerialize : Obligations.BuiltCommandsSerialize := by
  intro id s hid0 hid1
  have hid := And.intro hid0 hid1
  refine ⟨fun pos speed acc h0 h1 => ?move, fun speed acc => ?rotate, fun i hmem => ?typedRead,
    fun addr data => ?write⟩
  case move =>
    obtain ⟨bytes, hser, hlen⟩ := exec_ser_length_of_valid (motionPacket_valid hid pos speed acc) s
    exact ⟨_, bytes, exec_cbMove_of_inRange id speed acc s h0 h1, hser, hlen⟩
  case rotate =>
    obtain ⟨bytes, hser, hlen⟩ := exec_ser_length_of_valid (motionPacket_valid hid 0 speed acc) s
    exact ⟨_, bytes, exec_cbRotate id speed acc s, hser, hlen⟩
  case typedRead =>
    obtain ⟨r, hexec⟩ := exec_typedRead hmem
    obtain ⟨bytes, hser, hlen⟩ := exec_ser_length_of_valid (typedReadPacket_valid hid r) s
    exact ⟨_, bytes, hexec s, hser, hlen⟩
  case write =>
    have hlength : (data.map byteInt).length = data.length := List.length_map byteInt
    refine ⟨writePacket id (byteInt addr) (data.map byteInt), rfl, fun hcount => ?fits, fun hcount => ?refused,
      exec_ser_of_error (validate_servoId (.inr (show (254 : Int) < 255 by decide))) s⟩
    case fits =>
      obtain ⟨bytes, hser, hlen⟩ := exec_ser_length_of_valid (writePacket_valid hid (isByte_byteInt addr)
        (hlength.trans_le hcount) (all_isByte_map_byteInt data)) s
      refine ⟨bytes, hser, ?_⟩
      rw [hlen, writePacket, List.length_cons, hlength]
    case refused =>
      have herr := validate_paramCount (p := writePacket id (byteInt addr) (data.map byteInt)) hid (isByte_byteInt _)
        (by rw [writePacket, List.length_cons, hlength]; omega)
      rw [writePacket, List.length_cons, hlength] at herr
      exact exec_ser_of_error herr s

/-! ## Their rows -/

/-- A frame of byte parameters within the serializer's bound is well formed (R82, R98). -/
theorem Frame.wf_of_params (id c : Byte) {params : List Byte} (hcount : params.length ≤ 60) :
    (Frame.mk id (BitVec.ofNat 8 (params.length + 2)) (params ++ [c])).wf = true := by
  have hlen := lengthByte_toNat (hcount.trans (by decide))
  have hl : legalLength (BitVec.ofNat 8 (params.length + 2)) = true := by
    rw [legalLength_iff]
    omega
  simp [Frame.wf, hl, hlen]

/-- Settles O49: SER's frame is a well-formed frame of the packet's code, which meets the row's `cond`. -/
theorem builtFramesAreTheirTableRows : Obligations.BuiltFramesAreTheirTableRows := by
  intro id addr size data s hid hcount
  refine ⟨?read, ?write⟩
  case read =>
    refine ⟨_, _, checksum (id :: 4 :: Config.insRead :: [addr, size]), rfl,
      serEncodesValidPackets id Config.insRead [addr, size] s hid (Nat.le_of_ble_eq_true rfl), ?_⟩
    have hf := Frame.wf_of_params id (checksum (id :: 4 :: Config.insRead :: [addr, size])) (params := [addr, size])
      (Nat.le_of_ble_eq_true rfl)
    exact decode_wire_of_frameOp (f := ⟨id, 4, [addr, size, _]⟩) hf rfl
  case write =>
    have hcount' : (addr :: data).length ≤ 60 := Nat.succ_le_succ hcount
    refine ⟨_, _, checksum (id :: BitVec.ofNat 8 (data.length + 3) :: Config.insWrite :: addr :: data), rfl,
      serEncodesValidPackets id Config.insWrite (addr :: data) s hid hcount', ?_⟩
    have hf := Frame.wf_of_params id
      (checksum (id :: BitVec.ofNat 8 (data.length + 3) :: Config.insWrite :: addr :: data)) hcount'
    have hcond : 3 ≤ (BitVec.ofNat 8 ((addr :: data).length + 2)).toNat ∧
        (BitVec.ofNat 8 ((addr :: data).length + 2)).toNat ≤ 64 := by
      rw [lengthByte_toNat (hcount'.trans (by decide)), List.length_cons]
      omega
    exact decode_wire_of_frameOp hf (if_pos ((writeCond_iff hf).2 hcond))

end Sys2Proof.Machine
end

section
/-! Who reports errors (60_exceptions.md section 1). -/

namespace Sys2Proof.Machine

/-- An operation's outcome is an error exactly when its function's is, its results being none. -/
theorem Output.ofResult_map_eq_error_iff {α : Type} {f : α → Output} (hf : ∀ a e, f a ≠ .error e)
    (r : Except ErrKind α) (e : ErrKind) : Output.ofResult (r.map f) = .error e ↔ r = .error e := by
  cases r with
  | error e' => simp [Except.map]
  | ok a => simp [Except.map, hf]

/-- `i` is a decoder that reports the number of its parameters as other than its width (R210). -/
def ReportsWidth (i : Instr) (e : ErrKind) : Prop :=
  ∃ ps w, e = .lengthMismatch w ps.length ∧ ps.length ≠ w ∧ e.code = 7 ∧
    (w = 1 ∧ i ∈ [Instr.vdU8 ps, .vdVoltage ps, .vdTemperature ps] ∨
     w = 2 ∧ i ∈ [Instr.vdU16 ps, .vdS16 ps, .vdPosition ps, .vdSpeed ps, .vdCurrent ps, .vdLoad ps])

/-- The one-byte decoders report nothing but their width. -/
theorem reportsWidth_of_decodeU8 {ps : List Byte} {i : Instr} {e : ErrKind} (h : decodeU8 ps = .error e)
    (hi : i ∈ [Instr.vdU8 ps, .vdVoltage ps, .vdTemperature ps]) : ReportsWidth i e := by
  have hne : ps.length ≠ 1 := by
    intro hlen
    obtain ⟨b, rfl⟩ := List.length_eq_one_iff.1 hlen
    cases h
  cases (decodeU8_of_length hne).symm.trans h
  exact ⟨ps, 1, rfl, hne, rfl, .inl ⟨rfl, hi⟩⟩

/-- The two-byte decoders report nothing but their width. -/
theorem reportsWidth_of_decodeU16 {ps : List Byte} {i : Instr} {e : ErrKind} (h : decodeU16 ps = .error e)
    (hi : i ∈ [Instr.vdU16 ps, .vdS16 ps, .vdPosition ps, .vdSpeed ps, .vdCurrent ps, .vdLoad ps]) :
    ReportsWidth i e := by
  have hne : ps.length ≠ 2 := by
    intro hlen
    obtain ⟨lo, hi, rfl⟩ := List.length_eq_two.1 hlen
    cases h
  cases (decodeU16_of_length hne).symm.trans h
  exact ⟨ps, 2, rfl, hne, rfl, .inr ⟨rfl, hi⟩⟩

/-- The one-byte results are errors only where the byte is missing (R210, R211, R215). -/
theorem decodeU8_of_u8Result {ps : List Byte} {e : ErrKind} (h : Output.ofResult (u8Result ps) = .error e) :
    decodeU8 ps = .error e :=
  (Output.ofResult_map_eq_error_iff (by simp) _ e).1 h

theorem decodeU8_of_voltageResult {ps : List Byte} {e : ErrKind}
    (h : Output.ofResult (voltageResult ps) = .error e) : decodeU8 ps = .error e :=
  (Output.ofResult_map_eq_error_iff (by simp) _ e).1 h

/-- The two-byte results are errors only where the bytes are not two (R210, R212, R213). -/
theorem decodeU16_of_u16Result {ps : List Byte} {e : ErrKind} (h : Output.ofResult (u16Result ps) = .error e) :
    decodeU16 ps = .error e :=
  (Output.ofResult_map_eq_error_iff (by simp) _ e).1 h

theorem decodeU16_of_s16Result {ps : List Byte} {e : ErrKind} (h : Output.ofResult (s16Result ps) = .error e) :
    decodeU16 ps = .error e :=
  (Output.ofResult_map_eq_error_iff (by simp) _ e).1 h

/-- SER's errors are those of its checks (R164). -/
theorem validate_of_ser_error {p : Packet} {e : ErrKind}
    (h : Output.ofResult ((serialize p).map .frame) = .error e) : validate p = .error e :=
  (serialize_error_iff p e).1 ((Output.ofResult_map_eq_error_iff (by simp) _ e).1 h)

/-- CB.MOVE's error is its position (R189). -/
theorem eq_positionRange_of_move_error {id pos speed acc : Int} {e : ErrKind}
    (h : Output.ofResult ((movePacket id pos speed acc).map .packet) = .error e) : e = .positionRange pos := by
  have herr := (Output.ofResult_map_eq_error_iff (by simp) _ e).1 h
  rw [movePacket_eq] at herr
  split at herr <;> cases herr
  rfl

/-- The pure operations whose output is an error (R231). -/
theorem pureOutput_error_cases {i : Instr} {e : ErrKind} (h : pureOutput i = .error e) :
    (∃ p, i = .ser p ∧ 1 ≤ e.code.toNat ∧ e.code.toNat ≤ 5) ∨
    (∃ id pos speed acc, i = .cbMove id pos speed acc ∧ e = .positionRange pos ∧ e.code = 6) ∨ ReportsWidth i e := by
  cases i with
  | ser p =>
    obtain ⟨h1, h4⟩ := validate_error_code (validate_of_ser_error h)
    exact .inl ⟨p, rfl, h1, by omega⟩
  | cbMove id pos speed acc =>
    obtain rfl := eq_positionRange_of_move_error h
    exact .inr (.inl ⟨id, pos, speed, acc, rfl, rfl, rfl⟩)
  | vdU8 ps => exact .inr (.inr (reportsWidth_of_decodeU8 (decodeU8_of_u8Result h) (by simp)))
  | vdVoltage ps => exact .inr (.inr (reportsWidth_of_decodeU8 (decodeU8_of_voltageResult h) (by simp)))
  | vdTemperature ps => exact .inr (.inr (reportsWidth_of_decodeU8 (decodeU8_of_u8Result h) (by simp)))
  | vdU16 ps => exact .inr (.inr (reportsWidth_of_decodeU16 (decodeU16_of_u16Result h) (by simp)))
  | vdPosition ps => exact .inr (.inr (reportsWidth_of_decodeU16 (decodeU16_of_u16Result h) (by simp)))
  | vdS16 ps => exact .inr (.inr (reportsWidth_of_decodeU16 (decodeU16_of_s16Result h) (by simp)))
  | vdSpeed ps => exact .inr (.inr (reportsWidth_of_decodeU16 (decodeU16_of_s16Result h) (by simp)))
  | vdCurrent ps => exact .inr (.inr (reportsWidth_of_decodeU16 (decodeU16_of_s16Result h) (by simp)))
  | vdLoad ps => exact .inr (.inr (reportsWidth_of_decodeU16 (decodeU16_of_s16Result h) (by simp)))
  | _ => cases h

/-- The operations of the deserializer report nothing (R234). -/
theorem exec_ne_error_of_not_isPure {i : Instr} {s t : State} {e : ErrKind} (hi : i.isPure = false)
    (h : exec i s = .next t) : t.outputs ≠ s.outputs ++ [.error e] := by
  rcases exec_of_not_isPure hi with ⟨b, he⟩ | he | ⟨bytes, he⟩
  · obtain ⟨d, o, -, rfl⟩ := execRxByte_next (he s ▸ h)
    cases o <;> simp [Output.ofStep]
  · rw [he] at h
    cases h
    simp
  · obtain ⟨d, ps, -, rfl⟩ := receive_next (he s ▸ h)
    simp

/-- Settles O55: a deserializer operation reports nothing, and a pure one records its one output. -/
theorem onlyTheseOperationsReportErrors : Obligations.OnlyTheseOperationsReportErrors := by
  refine ⟨fun i s t e h ht => ?reports, fun _ _ _ _ _ _ => rfl⟩
  case reports =>
    cases hi : i.isPure with
    | false => exact absurd ht (exec_ne_error_of_not_isPure hi h)
    | true =>
      rw [exec_of_isPure hi] at h
      cases h
      have hout : pureOutput i = .error e := by simpa using ht
      exact pureOutput_error_cases hout

end Sys2Proof.Machine
end

section
/-! The port binding (10_state.md R34 to R37): what the output ports of each unit show. -/

namespace Sys2Proof.Machine

/-! ## Bytes on ports -/

/-- A byte port shows the sequence's element, or any value beyond its end (U15). -/
theorem portBytes_getElem {n : Nat} (free : Nat → Byte) (bs : List Byte) {k : Nat} (hk : k < n) :
    (portBytes n free bs)[k] = bs.getD k (free k) := by
  simp [portBytes]

/-- A byte port within the sequence shows its element. -/
theorem portBytes_getElem_of_lt {n : Nat} (free : Nat → Byte) {bs : List Byte} {k : Nat} (hk : k < n)
    (hlen : k < bs.length) : (portBytes n free bs)[k] = bs[k] := by
  rw [portBytes_getElem, List.getD_eq_getElem _ _ hlen]

/-- A parameter that is a byte stands on its port. -/
theorem params_getElem?_eq_port {n : Nat} (free : Nat → Byte) {ps : List Int} (hps : ps.all isByte = true) {k : Nat}
    (hk : k < n) (hlen : k < ps.length) :
    ps[k]? = some (((portBytes n free (ps.map toByte))[k].toNat : Int)) := by
  have hbyte : byteInt (toByte ps[k]) = ps[k] :=
    byteInt_toByte_of_isByte (List.all_eq_true.1 hps _ (List.getElem_mem hlen))
  rw [portBytes_getElem_of_lt free hk (by rwa [List.length_map]), List.getElem_map, List.getElem?_eq_getElem hlen]
  exact congrArg some hbyte.symm

/-- A byte given as an integer comes back from its port. -/
theorem toByte_toNat_of_isByte {v : Int} (h : isByte v = true) : ((toByte v).toNat : Int) = v :=
  byteInt_toByte_of_isByte h

/-- A count that fits its 6-bit port comes back from it. -/
theorem ofNat6_toNat {n : Nat} (h : n < 64) : (BitVec.ofNat 6 n).toNat = n := by
  rw [BitVec.toNat_ofNat]
  exact Nat.mod_eq_of_lt h

/-! ## The deserializer's packet ports -/

/-- Settles O57: an emitted packet is receivable, so its fields and its parameters fit the ports. -/
theorem packetPortsShowTheEmittedPacket : Obligations.PacketPortsShowTheEmittedPacket := by
  intro b free s rest hw hp
  obtain ⟨d, o, hstep⟩ := rxStep_some_of_wf b hw
  have hexec : step s = .next { rx := d, pending := rest, outputs := s.outputs ++ [.ofStep o] } := by
    rw [step_of_decode hp rfl]
    exact exec_rxByte_of_step (s := { s with pending := rest }) hstep
  refine ⟨d, .ofStep o, hexec, ?valid, fun p hop => ?packet⟩
  case valid => cases o <;> simp [Output.ofStep, rxPortsOf, Output.emitted]
  case packet =>
    obtain rfl : o = some p := by
      cases o with
      | none => cases hop
      | some q => cases hop; rfl
    obtain ⟨hid, hcode, hcount, hparams⟩ := (Packet.receivable_iff p).1 ((rxStep_keeps_wf hw hstep).2 p rfl)
    exact ⟨toByte_toNat_of_isByte hid, toByte_toNat_of_isByte hcode, ofNat6_toNat (by omega),
      fun k hk => params_getElem?_eq_port free hparams k.isLt hk⟩

/-! ## The serializer's ports -/

/-- The packet at the ports has as many parameters as `s_nparams` says (R35). -/
theorem SerPortsIn.length_params (i : SerPortsIn) : i.packet.params.length = i.sNparams.toNat := by
  simp only [SerPortsIn.packet, List.length_append, List.length_map, List.length_take, Vector.length_toList,
    List.length_replicate]
  omega

/-- At the ports SER refuses the id 255 (R35, R166). -/
theorem validate_ports_id {i : SerPortsIn} (h : i.sId = 255) : validate i.packet = .error (.servoId 255) := by
  have hid : i.packet.servoId = 255 := by simp [SerPortsIn.packet, h, byteInt]
  rw [validate_servoId (.inr (by rw [hid]; decide)), hid]

/-- An id at the ports other than 255 passes. -/
theorem SerPortsIn.id_inRange {i : SerPortsIn} (h : i.sId ≠ 255) :
    0 ≤ i.packet.servoId ∧ i.packet.servoId ≤ 254 := by
  have hlt := i.sId.isLt
  have hne : i.sId.toNat ≠ 255 := mt (fun h => BitVec.eq_of_toNat_eq h) h
  simp only [SerPortsIn.packet, byteInt]
  omega

/-- At the ports SER refuses more than 60 parameters (R35, R166). -/
theorem validate_ports_count {i : SerPortsIn} (h : i.sId ≠ 255) (hn : 60 < i.sNparams.toNat) :
    validate i.packet = .error (.paramCount i.sNparams.toNat) := by
  rw [← i.length_params] at hn ⊢
  exact validate_paramCount (SerPortsIn.id_inRange h) (isByte_byteInt i.sInstr) hn

/-- The parameters at the ports: the first `s_nparams`, none missing (R35). -/
theorem SerPortsIn.packet_of_le {i : SerPortsIn} (hn : i.sNparams.toNat ≤ 60) :
    i.packet = { servoId := byteInt i.sId, instruction := byteInt i.sInstr,
                 params := (i.sParams.toList.take i.sNparams.toNat).map byteInt } := by
  rw [SerPortsIn.packet, Nat.sub_eq_zero_of_le hn, List.replicate_zero, List.append_nil]

/-- The step of a serializer request whose check fails. -/
theorem step_ser_of_error {i : SerPortsIn} {s : State} {rest : List Request} {e : ErrKind}
    (hp : s.pending = i.request :: rest) (h : validate i.packet = .error e) :
    step s = .next { s with pending := rest, outputs := s.outputs ++ [.error e] } :=
  (step_of_decode hp rfl).trans (exec_ser_of_error h { s with pending := rest })

/-- The parameters on the ports that `s_nparams` counts. -/
def SerPortsIn.presented (i : SerPortsIn) : List Byte :=
  i.sParams.toList.take i.sNparams.toNat

theorem SerPortsIn.length_presented {i : SerPortsIn} (hn : i.sNparams.toNat ≤ 60) :
    i.presented.length = i.sNparams.toNat := by
  simp only [SerPortsIn.presented, List.length_take, Vector.length_toList]
  omega

/-- The frame SER outputs for the packet at the ports (R163). -/
def SerPortsIn.frame (i : SerPortsIn) : List Byte :=
  0xFF :: 0xFF :: i.sId :: BitVec.ofNat 8 (i.sNparams.toNat + 2) :: i.sInstr ::
    (i.presented ++ [checksum (i.sId :: BitVec.ofNat 8 (i.sNparams.toNat + 2) :: i.sInstr :: i.presented)])

theorem SerPortsIn.length_frame {i : SerPortsIn} (hn : i.sNparams.toNat ≤ 60) :
    i.frame.length = i.sNparams.toNat + 6 := by
  simp only [SerPortsIn.frame, List.length_cons, List.length_append, List.length_nil, SerPortsIn.length_presented hn]

/-- The step of a serializer request whose checks pass. -/
theorem step_ser_of_ok {i : SerPortsIn} {s : State} {rest : List Request} (hp : s.pending = i.request :: rest)
    (hid : i.sId ≠ 255) (hn : i.sNparams.toNat ≤ 60) :
    step s = .next { s with pending := rest, outputs := s.outputs ++ [.frame i.frame] } := by
  have hid254 : i.sId.toNat ≤ 254 := by
    have hne : i.sId.toNat ≠ 255 := mt (fun h => BitVec.eq_of_toNat_eq h) hid
    omega
  have hlen := SerPortsIn.length_presented hn
  have hser := serEncodesValidPackets i.sId i.sInstr i.presented { s with pending := rest } hid254 (hlen.trans_le hn)
  rw [hlen] at hser
  rw [step_of_decode hp rfl, SerPortsIn.packet_of_le hn]
  exact hser

/-- The parameters stand in the frame after its five first bytes. -/
theorem SerPortsIn.frame_param {i : SerPortsIn} (hn : i.sNparams.toNat ≤ 60) (v : Byte) {k : Nat} (hk : k < 60)
    (hkn : k < i.sNparams.toNat) : i.frame.getD (k + 5) v = i.sParams[k] := by
  have hlen := SerPortsIn.length_presented hn
  simp only [SerPortsIn.frame, List.getD_cons_succ]
  rw [List.getD_append _ _ _ _ (hlen ▸ hkn), List.getD_eq_getElem _ _ (hlen ▸ hkn)]
  simp only [SerPortsIn.presented, List.getElem_take, Vector.getElem_toList]

/-- The checksum stands in the frame after the parameters. -/
theorem SerPortsIn.frame_checksum {i : SerPortsIn} (hn : i.sNparams.toNat ≤ 60) (v : Byte) :
    i.frame.getD (i.sNparams.toNat + 5) v =
      checksum (i.sId :: BitVec.ofNat 8 (i.sNparams.toNat + 2) :: i.sInstr :: i.presented) := by
  have hlen := SerPortsIn.length_presented hn
  simp only [SerPortsIn.frame, List.getD_cons_succ]
  rw [List.getD_append_right _ _ _ _ hlen.le, hlen, Nat.sub_self]
  rfl

/-- Settles O56: the two failing checks, and otherwise the frame, index by index. -/
theorem serializerPortsShowTheResult : Obligations.SerializerPortsShowTheResult := by
  intro i free s rest hp
  by_cases hid : i.sId = 255
  · exact ⟨_, _, step_ser_of_error hp (validate_ports_id hid), rfl, fun _ => ⟨rfl, rfl, rfl⟩,
      fun h => absurd hid h, fun h => absurd hid h⟩
  by_cases hn : 60 < i.sNparams.toNat
  · exact ⟨_, _, step_ser_of_error hp (validate_ports_count hid hn), rfl, fun h => absurd h hid,
      fun _ _ => ⟨rfl, rfl, rfl⟩, fun _ h => absurd h (Nat.not_le.2 hn)⟩
  rw [Nat.not_lt] at hn
  refine ⟨_, _, step_ser_of_ok hp hid hn, rfl, fun h => absurd h hid, fun _ h => absurd hn (Nat.not_le.2 h),
    fun _ _ => ⟨rfl, rfl, ?count, ?_, ?_, ?_, ?length, ?_, fun k hk => ?param, ?checksum⟩⟩
  case count =>
    simp only [SerPortsIn.length_frame hn, BitVec.toNat_ofNat]
    omega
  case length =>
    exact (congrArg BitVec.toNat (portBytes_getElem free i.frame (by decide))).trans
      (lengthByte_toNat (hn.trans (by decide)))
  case param => exact (portBytes_getElem free i.frame _).trans (SerPortsIn.frame_param hn _ k.isLt hk)
  case checksum =>
    have hlt : i.sNparams.toNat + 5 < 66 := by omega
    rw [Vector.getElem?_eq_getElem hlt, portBytes_getElem free i.frame hlt, SerPortsIn.frame_checksum hn]
    rfl
  all_goals exact portBytes_getElem free i.frame (by decide)

/-! ## The decoder's ports -/

/-- The parameters at the decoder's ports (R37). -/
def VdPortsIn.params (i : VdPortsIn) : List Byte :=
  [i.vdP0, i.vdP1].take i.vdNparams.toNat ++ List.replicate (i.vdNparams.toNat - 2) 0

/-- They are as many as `vd_nparams` says. -/
theorem VdPortsIn.length_params (i : VdPortsIn) : i.params.length = i.vdNparams.toNat := by
  simp only [VdPortsIn.params, List.length_append, List.length_take, List.length_replicate, List.length_cons,
    List.length_nil]
  omega

theorem VdPortsIn.params_of_one {i : VdPortsIn} (h : i.vdNparams.toNat = 1) : i.params = [i.vdP0] := by
  rw [VdPortsIn.params, h]
  rfl

theorem VdPortsIn.params_of_two {i : VdPortsIn} (h : i.vdNparams.toNat = 2) : i.params = [i.vdP0, i.vdP1] := by
  rw [VdPortsIn.params, h]
  rfl

/-- The number of parameters that the operation at the ports takes (R210). -/
def VdPortsIn.width (i : VdPortsIn) : Nat :=
  if i.vdOp.toNat = 0 ∨ i.vdOp.toNat = 3 ∨ i.vdOp.toNat = 5 then 1 else 2

/-- What the ports `out` show is the output `o` of the operation at the ports `i` (R37). -/
def VdPortsIn.Shows (i : VdPortsIn) (o : Output) (out : VdPortsOut) : Prop :=
  (out.vdOk = true ↔ i.vdNparams.toNat = i.width) ∧
  (out.vdOk = true → out.vdErr = 0 ∧ (out.vdDiv10 = true ↔ i.vdOp.toNat = 3)) ∧
  (out.vdOk = false → out.vdErr = 7) ∧
  (∀ v, o = .value v → out.vdValue.toInt = v) ∧
  (∀ q, o = .volts q → out.vdValue.toInt = (i.vdP0.toNat : Int))

/-- A wrong number of parameters shows as code 7. -/
theorem VdPortsIn.shows_lengthMismatch {i : VdPortsIn} (h : i.vdNparams.toNat ≠ i.width) (free : Nat → Byte)
    (w n : Nat) : ∃ out, vdPortsOf free (.error (.lengthMismatch w n)) = some out ∧
      i.Shows (.error (.lengthMismatch w n)) out :=
  ⟨_, rfl, iff_of_false nofun h, nofun, fun _ => rfl, nofun, nofun⟩

/-- An integer result of at most 17 bits shows as itself. -/
theorem VdPortsIn.shows_value {i : VdPortsIn} (h : i.vdNparams.toNat = i.width) (hop : i.vdOp.toNat ≠ 3)
    (free : Nat → Byte) {v : Int} (hlo : -65536 ≤ v) (hhi : v < 65536) :
    ∃ out, vdPortsOf free (.value v) = some out ∧ i.Shows (.value v) out := by
  refine ⟨_, rfl, iff_of_true rfl h, fun _ => ⟨rfl, iff_of_false nofun hop⟩, nofun, fun w hw => ?_, nofun⟩
  cases hw
  exact BitVec.toInt_ofInt_eq_self (by decide) hlo hhi

/-- The volts show as the byte, in tenths, with the scale flag. -/
theorem VdPortsIn.shows_volts {i : VdPortsIn} (h : i.vdNparams.toNat = i.width) (hop : i.vdOp.toNat = 3)
    (free : Nat → Byte) : ∃ out, vdPortsOf free (.volts (mkRat i.vdP0.toNat Config.voltDiv)) = some out ∧
      i.Shows (.volts (mkRat i.vdP0.toNat Config.voltDiv)) out := by
  refine ⟨_, rfl, iff_of_true rfl h, fun _ => ⟨rfl, iff_of_true rfl hop⟩, nofun, nofun, fun q _ => ?_⟩
  have hlt := i.vdP0.isLt
  simp only [mkRat_voltDiv_carrier]
  exact BitVec.toInt_ofInt_eq_self (by decide) (by omega) (by omega)

/-- VD.U8 and VD.TEMPERATURE at the ports. -/
theorem VdPortsIn.shows_u8Result {i : VdPortsIn} (hop : i.vdOp.toNat = 0 ∨ i.vdOp.toNat = 5) (free : Nat → Byte) :
    ∃ out, vdPortsOf free (.ofResult (u8Result i.params)) = some out ∧ i.Shows (.ofResult (u8Result i.params)) out := by
  have hwidth : i.width = 1 := if_pos (by omega)
  by_cases h : i.vdNparams.toNat = 1
  · have hlt := i.vdP0.isLt
    rw [VdPortsIn.params_of_one h, u8Result_singleton]
    exact VdPortsIn.shows_value (h.trans hwidth.symm) (by omega) free (by omega) (by omega)
  · rw [u8Result_of_length (i.length_params ▸ h)]
    exact VdPortsIn.shows_lengthMismatch (hwidth ▸ h) free _ _

/-- VD.VOLTAGE at the ports. -/
theorem VdPortsIn.shows_voltageResult {i : VdPortsIn} (hop : i.vdOp.toNat = 3) (free : Nat → Byte) :
    ∃ out, vdPortsOf free (.ofResult (voltageResult i.params)) = some out ∧
      i.Shows (.ofResult (voltageResult i.params)) out := by
  have hwidth : i.width = 1 := if_pos (by omega)
  by_cases h : i.vdNparams.toNat = 1
  · rw [VdPortsIn.params_of_one h, voltageResult_singleton]
    exact VdPortsIn.shows_volts (h.trans hwidth.symm) hop free
  · rw [voltageResult_of_length (i.length_params ▸ h)]
    exact VdPortsIn.shows_lengthMismatch (hwidth ▸ h) free _ _

/-- VD.U16 and VD.POSITION at the ports. -/
theorem VdPortsIn.shows_u16Result {i : VdPortsIn} (hop : i.vdOp.toNat = 1 ∨ i.vdOp.toNat = 4) (free : Nat → Byte) :
    ∃ out, vdPortsOf free (.ofResult (u16Result i.params)) = some out ∧
      i.Shows (.ofResult (u16Result i.params)) out := by
  have hwidth : i.width = 2 := if_neg (by omega)
  by_cases h : i.vdNparams.toNat = 2
  · have hlt0 := i.vdP0.isLt
    have hlt1 := i.vdP1.isLt
    rw [VdPortsIn.params_of_two h, u16Result_pair]
    exact VdPortsIn.shows_value (h.trans hwidth.symm) (by omega) free (by omega) (by omega)
  · rw [u16Result_of_length (i.length_params ▸ h)]
    exact VdPortsIn.shows_lengthMismatch (hwidth ▸ h) free _ _

/-- VD.S16, VD.SPEED, VD.CURRENT and VD.LOAD at the ports. -/
theorem VdPortsIn.shows_s16Result {i : VdPortsIn} (hop : i.vdOp.toNat = 2 ∨ 6 ≤ i.vdOp.toNat) (free : Nat → Byte) :
    ∃ out, vdPortsOf free (.ofResult (s16Result i.params)) = some out ∧
      i.Shows (.ofResult (s16Result i.params)) out := by
  have hwidth : i.width = 2 := if_neg (by omega)
  by_cases h : i.vdNparams.toNat = 2
  · obtain ⟨hlo, hhi, -⟩ := signMagnitudeLaws (combine16 i.vdP0 i.vdP1)
    rw [VdPortsIn.params_of_two h, s16Result_pair, ← smag16_combine16]
    exact VdPortsIn.shows_value (h.trans hwidth.symm) (by omega) free (by omega) (by omega)
  · rw [s16Result_of_length (i.length_params ▸ h)]
    exact VdPortsIn.shows_lengthMismatch (hwidth ▸ h) free _ _

/-- The select codes 0 to 8 of the decoder by the primitive their operation is (R103, R211 to R220). -/
theorem decodeVd_cases {op : BitVec 4} (hop : op.toNat ≤ 8) (ps : List Byte) :
    ∃ j, decodeVd op ps = .ok j ∧ j.isPure = true ∧
      ((op.toNat = 0 ∨ op.toNat = 5) ∧ pureOutput j = .ofResult (u8Result ps) ∨
       op.toNat = 3 ∧ pureOutput j = .ofResult (voltageResult ps) ∨
       (op.toNat = 1 ∨ op.toNat = 4) ∧ pureOutput j = .ofResult (u16Result ps) ∨
       (op.toNat = 2 ∨ 6 ≤ op.toNat) ∧ pureOutput j = .ofResult (s16Result ps)) := by
  unfold decodeVd
  generalize op.toNat = n at hop
  interval_cases n <;> exact ⟨_, rfl, rfl, by simp [pureOutput]⟩

/-- Settles O58: each primitive's result shows at the ports. -/
theorem decoderPortsCarryTheValue : Obligations.DecoderPortsCarryTheValue := by
  intro i free s rest hp hop
  obtain ⟨j, hdec, hpure, hcases⟩ := decodeVd_cases hop i.params
  have hshows : ∃ out, vdPortsOf free (pureOutput j) = some out ∧ i.Shows (pureOutput j) out := by
    rcases hcases with ⟨h, he⟩ | ⟨h, he⟩ | ⟨h, he⟩ | ⟨h, he⟩ <;> rw [he]
    · exact VdPortsIn.shows_u8Result h free
    · exact VdPortsIn.shows_voltageResult h free
    · exact VdPortsIn.shows_u16Result h free
    · exact VdPortsIn.shows_s16Result h free
  obtain ⟨out, hout, hshown⟩ := hshows
  exact ⟨_, out, (step_of_decode hp hdec).trans (exec_of_isPure hpure { s with pending := rest }), hout, hshown⟩

/-! ## The builder's ports -/

/-- The builder's select codes without data elements ignore them (R36). -/
theorem decodeCb_ignores_data {op : BitVec 4} (h1 : op.toNat ≠ 1) (h11 : op.toNat ≠ 11) (a : CbArgs)
    (data : List Int) : decodeCb op { a with data := data } = decodeCb op a := by
  unfold decodeCb
  split <;> simp_all

/-- A packet for the servo `id` whose other fields are bytes. -/
def ByteFields (id : Int) (p : Packet) : Prop :=
  p.servoId = id ∧ isByte p.instruction = true ∧ p.params.all isByte = true

/-- The operands that become parameters as they are, are bytes. -/
def CbArgs.AreBytes (a : CbArgs) : Prop :=
  isByte a.address = true ∧ isByte a.size = true ∧ a.data.all isByte = true

/-- R186, R191 to R196: a read of byte operands. -/
theorem readPacket_byteFields {addr size : Int} (id : Int) (haddr : isByte addr = true) (hsize : isByte size = true) :
    ByteFields id (readPacket id addr size) :=
  ⟨rfl, rfl, by simp only [readPacket, List.all_cons, List.all_nil, haddr, hsize, Bool.and_self]⟩

/-- R191 to R196: every register's address and width is a byte. -/
theorem typedReadPacket_byteFields (r : RegName) (id : Int) : ByteFields id (typedReadPacket r id) :=
  readPacket_byteFields id (isByte_byteInt _) (isByte_width r)

/-- R188: a write of byte operands. -/
theorem writePacket_byteFields {addr : Int} {data : List Int} (id : Int) (haddr : isByte addr = true)
    (hdata : data.all isByte = true) : ByteFields id (writePacket id addr data) :=
  ⟨rfl, rfl, by rw [writePacket, List.all_cons, haddr, hdata, Bool.and_self]⟩

/-- R189, R190: the motion packets, whatever the operands are. -/
theorem motionPacket_byteFields (id pos speed acc : Int) :
    ByteFields id (writePacket id (regParam .acceleration) (motionData pos speed acc)) :=
  writePacket_byteFields id (isByte_byteInt _) (all_isByte_motionData pos speed acc)

/-- The number of parameters that the operation `op` makes of `a`: the data and their address, or at most 8. -/
def BuiltCount (op : Nat) (a : CbArgs) (n : Nat) : Prop :=
  (op = 1 ∨ op = 11 → n = a.data.length + 1) ∧ (op ≠ 1 → op ≠ 11 → n ≤ 8)

theorem builtCount_of_le {op n : Nat} (a : CbArgs) (h1 : op ≠ 1) (h11 : op ≠ 11) (hn : n ≤ 8) : BuiltCount op a n :=
  ⟨fun h => (h.elim h1 h11).elim, fun _ _ => hn⟩

theorem builtCount_of_data {op n : Nat} {a : CbArgs} (hop : op = 1 ∨ op = 11) (hn : n = a.data.length + 1) :
    BuiltCount op a n :=
  ⟨fun _ => hn, fun h1 h11 => (hop.elim h1 h11).elim⟩

/-- Every select code of R103 but that of a refused CB.MOVE builds a packet of bytes from byte operands. -/
theorem decodeCb_builds {op : BitVec 4} {a : CbArgs} (hop : op.toNat ≤ 12) (ha : CbArgs.AreBytes a)
    (hpos : op.toNat = 2 → 0 ≤ a.position ∧ a.position ≤ 4095) :
    ∃ j p, decodeCb op a = .ok j ∧ j.isPure = true ∧ pureOutput j = .packet p ∧ ByteFields a.servoId p ∧
      BuiltCount op.toNat a p.params.length := by
  obtain ⟨haddr, hsize, hdata⟩ := ha
  have hread := fun r => typedReadPacket_byteFields r a.servoId
  have hmotion := fun pos => motionPacket_byteFields a.servoId pos a.speed a.acc
  have hshort : ∀ {n k : Nat}, n ≠ 1 → n ≠ 11 → Nat.ble k 8 = true → BuiltCount n a k :=
    fun h1 h11 hk => builtCount_of_le a h1 h11 (Nat.le_of_ble_eq_true hk)
  unfold decodeCb
  generalize op.toNat = n at hop hpos
  match n, hop, hpos with
  | 0, _, _ => exact ⟨_, _, rfl, rfl, rfl, readPacket_byteFields _ haddr hsize, hshort (by decide) (by decide) rfl⟩
  | 1, _, _ =>
    exact ⟨_, _, rfl, rfl, rfl, writePacket_byteFields _ haddr hdata, builtCount_of_data (.inl rfl) rfl⟩
  | 2, _, hpos =>
    obtain ⟨h0, h1⟩ := hpos rfl
    refine ⟨_, _, rfl, rfl, ?_, hmotion a.position, hshort (by decide) (by decide) rfl⟩
    rw [pureOutput, movePacket_of_inRange _ _ _ h0 h1]
    rfl
  | 3, _, _ => exact ⟨_, _, rfl, rfl, rfl, hmotion 0, hshort (by decide) (by decide) rfl⟩
  | 4, _, _ => exact ⟨_, _, rfl, rfl, rfl, hread .position, hshort (by decide) (by decide) rfl⟩
  | 5, _, _ => exact ⟨_, _, rfl, rfl, rfl, hread .speed, hshort (by decide) (by decide) rfl⟩
  | 6, _, _ => exact ⟨_, _, rfl, rfl, rfl, hread .temperature, hshort (by decide) (by decide) rfl⟩
  | 7, _, _ => exact ⟨_, _, rfl, rfl, rfl, hread .voltage, hshort (by decide) (by decide) rfl⟩
  | 8, _, _ => exact ⟨_, _, rfl, rfl, rfl, hread .load, hshort (by decide) (by decide) rfl⟩
  | 9, _, _ => exact ⟨_, _, rfl, rfl, rfl, hread .current, hshort (by decide) (by decide) rfl⟩
  | 10, _, _ => exact ⟨_, _, rfl, rfl, rfl, ⟨rfl, rfl, rfl⟩, hshort (by decide) (by decide) rfl⟩
  | 11, _, _ =>
    have hall : (a.address :: a.data).all isByte = true := by rw [List.all_cons, haddr, hdata, Bool.and_self]
    exact ⟨_, _, rfl, rfl, rfl, ⟨rfl, rfl, hall⟩, builtCount_of_data (.inr rfl) rfl⟩
  | 12, _, _ => exact ⟨_, _, rfl, rfl, rfl, ⟨rfl, rfl, rfl⟩, hshort (by decide) (by decide) rfl⟩
  | n + 13, hop, _ => exact absurd hop (by omega)

/-- The operands at the builder's ports (R36). -/
def CbPortsIn.args (free : Nat → Byte) (i : CbPortsIn) : CbArgs :=
  { servoId := byteInt i.cbId
    address := byteInt i.cbAddr
    size := byteInt i.cbSize
    data := (i.data free).map byteInt
    position := (i.cbPosition.toNat : Int)
    speed := (i.cbSpeed.toNat : Int)
    acc := byteInt i.cbAcc }

theorem CbPortsIn.request_eq (free : Nat → Byte) (i : CbPortsIn) : i.request free = .cb i.cbOp (i.args free) := rfl

theorem CbPortsIn.args_areBytes (free : Nat → Byte) (i : CbPortsIn) : CbArgs.AreBytes (i.args free) :=
  ⟨isByte_byteInt _, isByte_byteInt _, all_isByte_map_byteInt _⟩

/-- There are as many data elements as `cb_ndata` says (R36). -/
theorem CbPortsIn.length_data (free : Nat → Byte) (i : CbPortsIn) : (i.args free).data.length = i.cbNdata.toNat := by
  simp only [CbPortsIn.args, CbPortsIn.data, List.length_map, List.length_append, List.length_take,
    Vector.length_toList, List.length_range]
  omega

/-- CB.MOVE at the ports with a position above 4095 reports it. -/
theorem step_cb_of_outOfRange {i : CbPortsIn} {free : Nat → Byte} {s : State} {rest : List Request}
    (hp : s.pending = i.request free :: rest) (hop : i.cbOp.toNat = 2) (hpos : 4095 < i.cbPosition.toNat) :
    step s = .next { s with pending := rest, outputs := s.outputs ++ [.error (.positionRange i.cbPosition.toNat)] } := by
  have hdec : decode (i.request free) =
      .ok (.cbMove (byteInt i.cbId) i.cbPosition.toNat i.cbSpeed.toNat (byteInt i.cbAcc)) := by
    rw [CbPortsIn.request_eq, decode, decodeCb, hop]
    rfl
  have hrange : (i.cbPosition.toNat : Int) < 0 ∨ 4095 < (i.cbPosition.toNat : Int) := by omega
  rw [step_of_decode hp hdec]
  exact (cbMoveBuildsOrRefusesThePosition _ _ _ _ { s with pending := rest }).2 hrange

/-- The operation at the builder's ports outputs a packet of bytes, unless it is a refused CB.MOVE. -/
theorem step_cb_of_builds {i : CbPortsIn} {free : Nat → Byte} {s : State} {rest : List Request}
    (hp : s.pending = i.request free :: rest) (hop : i.cbOp.toNat ≤ 12)
    (hpos : ¬(i.cbOp.toNat = 2 ∧ 4095 < i.cbPosition.toNat)) :
    ∃ p, step s = .next { s with pending := rest, outputs := s.outputs ++ [.packet p] } ∧
      ByteFields (byteInt i.cbId) p ∧ BuiltCount i.cbOp.toNat (i.args free) p.params.length := by
  have hrange : i.cbOp.toNat = 2 → 0 ≤ (i.args free).position ∧ (i.args free).position ≤ 4095 := by
    intro h2
    simp only [CbPortsIn.args]
    omega
  obtain ⟨j, p, hdec, hpure, hout, hfields, hcount⟩ := decodeCb_builds hop (i.args_areBytes free) hrange
  refine ⟨p, ?_, hfields, hcount⟩
  rw [step_of_decode hp hdec, exec_of_isPure hpure, hout]
  rfl

/-- Settles O59: the built packet's fields are bytes and, but for the writes of 60 to 63 data bytes, its parameters fit the
ports. -/
theorem builderPortsShowThePacket : Obligations.BuilderPortsShowThePacket := by
  intro i absent free s rest hp hop
  refine ⟨fun h1 h11 n data absent' => decodeCb_ignores_data h1 h11 (i.args absent) _, ?_⟩
  by_cases hpos : i.cbOp.toNat = 2 ∧ 4095 < i.cbPosition.toNat
  · exact ⟨_, _, step_cb_of_outOfRange hp hpos.1 hpos.2, rfl, fun _ => ⟨rfl, rfl⟩, fun h => absurd hpos h⟩
  obtain ⟨p, hstep, ⟨hid, hcode, hparams⟩, hdata, hshort⟩ := step_cb_of_builds hp hop hpos
  rw [CbPortsIn.length_data] at hdata
  refine ⟨_, _, hstep, rfl, fun h => absurd h hpos, fun _ => ⟨rfl, rfl, ?id, p, rfl, toByte_toNat_of_isByte hcode,
    hdata, fun hndata => ?ports⟩⟩
  case id => exact (congrArg toByte hid).trans (toByte_byteInt i.cbId)
  case ports =>
    have hlt : p.params.length < 64 := by
      by_cases hop' : i.cbOp.toNat = 1 ∨ i.cbOp.toNat = 11
      · have := hdata hop'
        have := hndata hop'
        omega
      · rw [not_or] at hop'
        have := hshort hop'.1 hop'.2
        omega
    refine ⟨?_, fun k hk => params_getElem?_eq_port free hparams k.isLt hk⟩
    simp only [hlt, if_true]
    exact ofNat6_toNat hlt

end Sys2Proof.Machine
end
